-- ==== Sys2Proof/Word.lean ====
section
/-! DEFINITION. The word types of CORE (spec 00_scope.md R7, R9, R10): an 8-bit byte, a 16-bit word, a 4-bit nibble, a
12-bit address field, and the number of a general register. All values are unsigned (R9). -/

namespace Sys2Proof

/-- A byte: a general register, a timer, a memory cell (R7 `XLEN`, `TLEN`). -/
abbrev Byte := BitVec 8

/-- A 16-bit word: an instruction word, I, PC, a stack entry (R7 `ILEN`, `PCLEN`). -/
abbrev Word := BitVec 16

/-- A 4-bit half-byte of an instruction word (R14). -/
abbrev Nibble := BitVec 4

/-- The field `NNN` of an instruction word, 12 bits (R12, R72). -/
abbrev Addr := BitVec 12

/-- The number of a general register, 0 to 15 (R20): `V[i]` with `i : RegNum`. Also the number of a key (R30). -/
abbrev RegNum := Fin 16

/-- The number of VF, the flag register (R10, R21). -/
abbrev vf : RegNum := 15

end Sys2Proof
end

