-- ==== Sys2Proof/Syntax.lean ====
section
/-! DEFINITION. The 34 instructions of CORE (spec 30_encoding.md R76, spec/opcode_table.json), one constructor per row, in the
table's order. An operand is the field the encoding gives it (R12, R72). A field that the table gives a row but that the
instruction does not examine (R75: `w[3:0]` of `5XY_` and `9XY_`, `Y` of the shifts) is an operand all the same, so that an
instruction determines its word. -/

namespace Sys2Proof

inductive Instr where
  /-- `00E0` CLS (R150) -/
  | cls
  /-- `00EE` RET (R102) -/
  | ret
  /-- `1NNN` JP NNN (R100) -/
  | jp (nnn : Addr)
  /-- `2NNN` CALL NNN (R101) -/
  | call (nnn : Addr)
  /-- `3XNN` SE Vx, NN (R104) -/
  | seVxNn (x : RegNum) (nn : Byte)
  /-- `4XNN` SNE Vx, NN (R105) -/
  | sneVxNn (x : RegNum) (nn : Byte)
  /-- `5XY_` SE Vx, Vy (R106); `n` is `w[3:0]`, not examined (R75) -/
  | seVxVy (x y : RegNum) (n : Nibble)
  /-- `6XNN` LD Vx, NN (R120) -/
  | ldVxNn (x : RegNum) (nn : Byte)
  /-- `7XNN` ADD Vx, NN (R121) -/
  | addVxNn (x : RegNum) (nn : Byte)
  /-- `8XY0` LD Vx, Vy (R122) -/
  | ldVxVy (x y : RegNum)
  /-- `8XY1` OR Vx, Vy (R123) -/
  | orVxVy (x y : RegNum)
  /-- `8XY2` AND Vx, Vy (R124) -/
  | andVxVy (x y : RegNum)
  /-- `8XY3` XOR Vx, Vy (R125) -/
  | xorVxVy (x y : RegNum)
  /-- `8XY4` ADD Vx, Vy (R126) -/
  | addVxVy (x y : RegNum)
  /-- `8XY5` SUB Vx, Vy (R127) -/
  | subVxVy (x y : RegNum)
  /-- `8XY6` SHR Vx (R128); `y` is not used (R75, D8) -/
  | shrVx (x y : RegNum)
  /-- `8XY7` SUBN Vx, Vy (R129) -/
  | subnVxVy (x y : RegNum)
  /-- `8XYE` SHL Vx (R130); `y` is not used (R75, D8) -/
  | shlVx (x y : RegNum)
  /-- `9XY_` SNE Vx, Vy (R107); `n` is `w[3:0]`, not examined (R75) -/
  | sneVxVy (x y : RegNum) (n : Nibble)
  /-- `ANNN` LD I, NNN (R140) -/
  | ldI (nnn : Addr)
  /-- `BNNN` JP V0, NNN (R103) -/
  | jpV0 (nnn : Addr)
  /-- `CXNN` RND Vx, NN (R166) -/
  | rnd (x : RegNum) (nn : Byte)
  /-- `DXYN` DRW Vx, Vy, N (R151); `n` is the row count, 0 to 15 (R72; `WellFormed`; log entry 13) -/
  | drw (x y : RegNum) (n : Nat)
  /-- `EX9E` SKP Vx (R160) -/
  | skp (x : RegNum)
  /-- `EXA1` SKNP Vx (R161) -/
  | sknp (x : RegNum)
  /-- `FX07` LD Vx, DT (R163) -/
  | ldVxDt (x : RegNum)
  /-- `FX0A` LD Vx, K (R162) -/
  | ldVxK (x : RegNum)
  /-- `FX15` LD DT, Vx (R164) -/
  | ldDtVx (x : RegNum)
  /-- `FX18` LD ST, Vx (R165) -/
  | ldStVx (x : RegNum)
  /-- `FX1E` ADD I, Vx (R141) -/
  | addIVx (x : RegNum)
  /-- `FX29` LD F, Vx (R142) -/
  | ldFVx (x : RegNum)
  /-- `FX33` LD B, Vx (R143) -/
  | ldBVx (x : RegNum)
  /-- `FX55` LD [I], Vx (R144) -/
  | storeVx (x : RegNum)
  /-- `FX65` LD Vx, [I] (R145) -/
  | loadVx (x : RegNum)
  deriving DecidableEq, Repr

end Sys2Proof
end

