-- ==== Sys2Proof/WellFormed.lean ====
section
/-! DEFINITION. When an instruction term stands for an instruction word (spec 30_encoding.md R72). Register numbers, bytes,
addresses and unexamined nibbles hold exactly the values of their fields by their types; the one operand that is a count, the
row count of `DXYN`, is "an unsigned row count 0 to 15" and is checked here. -/

namespace Sys2Proof

/-- The row count of `DXYN` fits its field `N` (R72); every other operand fits its field by its type. -/
def Instr.wellFormed (i : Instr) : Bool :=
  match i with
  | .drw _ _ n => decide (n ≤ 15)
  | .cls | .ret | .jp _ | .call _ | .seVxNn _ _ | .sneVxNn _ _ | .seVxVy _ _ _ | .ldVxNn _ _ | .addVxNn _ _ | .ldVxVy _ _
  | .orVxVy _ _ | .andVxVy _ _ | .xorVxVy _ _ | .addVxVy _ _ | .subVxVy _ _ | .shrVx _ _ | .subnVxVy _ _ | .shlVx _ _
  | .sneVxVy _ _ _ | .ldI _ | .jpV0 _ | .rnd _ _ | .skp _ | .sknp _ | .ldVxDt _ | .ldVxK _ | .ldDtVx _ | .ldStVx _ | .addIVx _
  | .ldFVx _ | .ldBVx _ | .storeVx _ | .loadVx _ => true

end Sys2Proof
end

