-- ==== Sys2Proof/Decode.lean ====
section
/-! DEFINITION. The decoder and the encoder of CORE's one instruction format length, the 16-bit word (spec 30_encoding.md R70 to
R81), and the opcode table of R76 as data. Decoding is total: a word is an instruction or is rejected by name with the word
itself (R78). -/

namespace Sys2Proof

/-! ## The fields of an instruction word (00_scope.md R12) -/

/-- `OP = w[15:12]` -/
def fieldOp (w : Word) : Nibble := w.extractLsb' 12 4

/-- `w[11:8]` as a nibble -/
def fieldXNibble (w : Word) : Nibble := w.extractLsb' 8 4

/-- `w[7:4]` as a nibble -/
def fieldYNibble (w : Word) : Nibble := w.extractLsb' 4 4

/-- A nibble read as a register number (R72: "all 16 values are legal"). -/
def regOfNibble (n : Nibble) : RegNum := ⟨n.toNat, n.isLt⟩

/-- A register number as the nibble that selects it. -/
def nibbleOfReg (x : RegNum) : Nibble := BitVec.ofNat 4 x.val

/-- `X = w[11:8]` -/
def fieldX (w : Word) : RegNum := regOfNibble (fieldXNibble w)

/-- `Y = w[7:4]` -/
def fieldY (w : Word) : RegNum := regOfNibble (fieldYNibble w)

/-- `N = w[3:0]` -/
def fieldN (w : Word) : Nibble := w.extractLsb' 0 4

/-- `NN = w[7:0]` -/
def fieldNn (w : Word) : Byte := w.extractLsb' 0 8

/-- `NNN = w[11:0]` -/
def fieldNnn (w : Word) : Addr := w.extractLsb' 0 12

/-! ## Decoding -/

/-- Why bytes are not an instruction. -/
inductive DecodeError where
  /-- The word matches no row of the opcode table (R78): "`IllegalOpcode` carrying the raw instruction word". -/
  | illegalOpcode (w : Word)
  /-- Fewer than the two bytes that every instruction has (R70). -/
  | truncated
  deriving DecidableEq, Repr

/-- Group 0x0 (R74): "the whole word is compared". -/
def decodeGroup0 (w : Word) : Except DecodeError Instr :=
  if w = 0x00E0#16 then .ok .cls
  else if w = 0x00EE#16 then .ok .ret
  else .error (.illegalOpcode w)

/-- Group 0x8 (R74): dispatch on the low nibble. -/
def decodeGroup8 (w : Word) : Except DecodeError Instr :=
  if fieldN w = 0x0#4 then .ok (.ldVxVy (fieldX w) (fieldY w))
  else if fieldN w = 0x1#4 then .ok (.orVxVy (fieldX w) (fieldY w))
  else if fieldN w = 0x2#4 then .ok (.andVxVy (fieldX w) (fieldY w))
  else if fieldN w = 0x3#4 then .ok (.xorVxVy (fieldX w) (fieldY w))
  else if fieldN w = 0x4#4 then .ok (.addVxVy (fieldX w) (fieldY w))
  else if fieldN w = 0x5#4 then .ok (.subVxVy (fieldX w) (fieldY w))
  else if fieldN w = 0x6#4 then .ok (.shrVx (fieldX w) (fieldY w))
  else if fieldN w = 0x7#4 then .ok (.subnVxVy (fieldX w) (fieldY w))
  else if fieldN w = 0xE#4 then .ok (.shlVx (fieldX w) (fieldY w))
  else .error (.illegalOpcode w)

/-- Group 0xE (R74): dispatch on the low byte. -/
def decodeGroupE (w : Word) : Except DecodeError Instr :=
  if fieldNn w = 0x9E#8 then .ok (.skp (fieldX w))
  else if fieldNn w = 0xA1#8 then .ok (.sknp (fieldX w))
  else .error (.illegalOpcode w)

/-- Group 0xF (R74): dispatch on the low byte. -/
def decodeGroupF (w : Word) : Except DecodeError Instr :=
  if fieldNn w = 0x07#8 then .ok (.ldVxDt (fieldX w))
  else if fieldNn w = 0x0A#8 then .ok (.ldVxK (fieldX w))
  else if fieldNn w = 0x15#8 then .ok (.ldDtVx (fieldX w))
  else if fieldNn w = 0x18#8 then .ok (.ldStVx (fieldX w))
  else if fieldNn w = 0x1E#8 then .ok (.addIVx (fieldX w))
  else if fieldNn w = 0x29#8 then .ok (.ldFVx (fieldX w))
  else if fieldNn w = 0x33#8 then .ok (.ldBVx (fieldX w))
  else if fieldNn w = 0x55#8 then .ok (.storeVx (fieldX w))
  else if fieldNn w = 0x65#8 then .ok (.loadVx (fieldX w))
  else .error (.illegalOpcode w)

/-- Decode one instruction word: the primary dispatch of R73 on `OP`, the secondary dispatch of R74. -/
def decodeWord (w : Word) : Except DecodeError Instr :=
  if fieldOp w = 0x0#4 then decodeGroup0 w
  else if fieldOp w = 0x1#4 then .ok (.jp (fieldNnn w))
  else if fieldOp w = 0x2#4 then .ok (.call (fieldNnn w))
  else if fieldOp w = 0x3#4 then .ok (.seVxNn (fieldX w) (fieldNn w))
  else if fieldOp w = 0x4#4 then .ok (.sneVxNn (fieldX w) (fieldNn w))
  else if fieldOp w = 0x5#4 then .ok (.seVxVy (fieldX w) (fieldY w) (fieldN w))
  else if fieldOp w = 0x6#4 then .ok (.ldVxNn (fieldX w) (fieldNn w))
  else if fieldOp w = 0x7#4 then .ok (.addVxNn (fieldX w) (fieldNn w))
  else if fieldOp w = 0x8#4 then decodeGroup8 w
  else if fieldOp w = 0x9#4 then .ok (.sneVxVy (fieldX w) (fieldY w) (fieldN w))
  else if fieldOp w = 0xA#4 then .ok (.ldI (fieldNnn w))
  else if fieldOp w = 0xB#4 then .ok (.jpV0 (fieldNnn w))
  else if fieldOp w = 0xC#4 then .ok (.rnd (fieldX w) (fieldNn w))
  else if fieldOp w = 0xD#4 then .ok (.drw (fieldX w) (fieldY w) (fieldN w).toNat)
  else if fieldOp w = 0xE#4 then decodeGroupE w
  else decodeGroupF w

/-- The instruction word of two bytes in memory order: big-endian, `a || b` (20_memory.md R51, R70). -/
def wordOfBytes (hi lo : Byte) : Word := hi ++ lo

/-- The two bytes of a word in memory order, the byte at the lower address first (R51). -/
def bytesOfWord (w : Word) : List Byte := [w.extractLsb' 8 8, w.extractLsb' 0 8]

/-- Decode the first instruction of a list of bytes and give back the bytes after it. -/
def decodeBytes (bs : List Byte) : Except DecodeError (Instr × List Byte) :=
  match bs with
  | hi :: lo :: rest =>
    match decodeWord (wordOfBytes hi lo) with
    | .ok i => .ok (i, rest)
    | .error e => .error e
  | _ => .error .truncated

/-- The instruction the decoder reads from an instruction whose bits are `w`, bit 0 the least significant bit of the word, every
bit above `nbits` being 0: the word is laid out in memory order and given to `decodeBytes`. -/
def decodeTableWord (nbits w : Nat) : Option Instr :=
  match decodeBytes (bytesOfWord (BitVec.ofNat 16 (w % 2 ^ nbits))) with
  | .ok (i, _) => some i
  | .error _ => none

/-! ## Encoding (the six formats of R71) -/

/-- Format `A`: `OP`, `NNN`. -/
def formatA (op : Nibble) (nnn : Addr) : Word := op ++ nnn

/-- Format `XB`: `OP`, `X`, `NN`. Format `XF` is the same layout, with `NN` a function code. -/
def formatXB (op : Nibble) (x : RegNum) (nn : Byte) : Word := (op ++ nibbleOfReg x) ++ nn

/-- Format `XY`: `OP`, `X`, `Y`, function `N`. Format `XYN` is the same layout, with `N` an operand. -/
def formatXY (op : Nibble) (x y : RegNum) (n : Nibble) : Word := ((op ++ nibbleOfReg x) ++ nibbleOfReg y) ++ n

/-- The word of an instruction (R71, R76). -/
def encode : Instr → Word
  | .cls => 0x00E0#16
  | .ret => 0x00EE#16
  | .jp nnn => formatA 0x1#4 nnn
  | .call nnn => formatA 0x2#4 nnn
  | .seVxNn x nn => formatXB 0x3#4 x nn
  | .sneVxNn x nn => formatXB 0x4#4 x nn
  | .seVxVy x y n => formatXY 0x5#4 x y n
  | .ldVxNn x nn => formatXB 0x6#4 x nn
  | .addVxNn x nn => formatXB 0x7#4 x nn
  | .ldVxVy x y => formatXY 0x8#4 x y 0x0#4
  | .orVxVy x y => formatXY 0x8#4 x y 0x1#4
  | .andVxVy x y => formatXY 0x8#4 x y 0x2#4
  | .xorVxVy x y => formatXY 0x8#4 x y 0x3#4
  | .addVxVy x y => formatXY 0x8#4 x y 0x4#4
  | .subVxVy x y => formatXY 0x8#4 x y 0x5#4
  | .shrVx x y => formatXY 0x8#4 x y 0x6#4
  | .subnVxVy x y => formatXY 0x8#4 x y 0x7#4
  | .shlVx x y => formatXY 0x8#4 x y 0xE#4
  | .sneVxVy x y n => formatXY 0x9#4 x y n
  | .ldI nnn => formatA 0xA#4 nnn
  | .jpV0 nnn => formatA 0xB#4 nnn
  | .rnd x nn => formatXB 0xC#4 x nn
  | .drw x y n => formatXY 0xD#4 x y (BitVec.ofNat 4 n)
  | .skp x => formatXB 0xE#4 x 0x9E#8
  | .sknp x => formatXB 0xE#4 x 0xA1#8
  | .ldVxDt x => formatXB 0xF#4 x 0x07#8
  | .ldVxK x => formatXB 0xF#4 x 0x0A#8
  | .ldDtVx x => formatXB 0xF#4 x 0x15#8
  | .ldStVx x => formatXB 0xF#4 x 0x18#8
  | .addIVx x => formatXB 0xF#4 x 0x1E#8
  | .ldFVx x => formatXB 0xF#4 x 0x29#8
  | .ldBVx x => formatXB 0xF#4 x 0x33#8
  | .storeVx x => formatXB 0xF#4 x 0x55#8
  | .loadVx x => formatXB 0xF#4 x 0x65#8

/-- The two bytes of an instruction in memory order. -/
def encodeBytes (i : Instr) : List Byte := bytesOfWord (encode i)

/-! ## The opcode table of R76 as data -/

/-- One row of R76: "`w` is that instruction exactly when `(w & mask) = match`". -/
structure OpcodeRow where
  /-- the row's mnemonic in spec/opcode_table.json -/
  mnemonic : String
  /-- the row's `match` -/
  value : Word
  /-- the row's `mask` -/
  mask : Word
  deriving DecidableEq, Repr

/-- A word matches a row (R76). -/
def OpcodeRow.matchesWord (r : OpcodeRow) (w : Word) : Bool := w &&& r.mask == r.value

/-- Groups 0x0 to 0x7 of R76. -/
def opcodeRowsLow : List OpcodeRow := [
  ⟨"CLS", 0x00E0, 0xFFFF⟩, ⟨"RET", 0x00EE, 0xFFFF⟩, ⟨"JP_NNN", 0x1000, 0xF000⟩, ⟨"CALL_NNN", 0x2000, 0xF000⟩,
  ⟨"SE_Vx__NN", 0x3000, 0xF000⟩, ⟨"SNE_Vx__NN", 0x4000, 0xF000⟩, ⟨"SE_Vx__Vy", 0x5000, 0xF000⟩,
  ⟨"LD_Vx__NN", 0x6000, 0xF000⟩, ⟨"ADD_Vx__NN", 0x7000, 0xF000⟩]

/-- Groups 0x8 to 0xD of R76. -/
def opcodeRowsMid : List OpcodeRow := [
  ⟨"LD_Vx__Vy", 0x8000, 0xF00F⟩, ⟨"OR_Vx__Vy", 0x8001, 0xF00F⟩, ⟨"AND_Vx__Vy", 0x8002, 0xF00F⟩,
  ⟨"XOR_Vx__Vy", 0x8003, 0xF00F⟩, ⟨"ADD_Vx__Vy", 0x8004, 0xF00F⟩, ⟨"SUB_Vx__Vy", 0x8005, 0xF00F⟩,
  ⟨"SHR_Vx", 0x8006, 0xF00F⟩, ⟨"SUBN_Vx__Vy", 0x8007, 0xF00F⟩, ⟨"SHL_Vx", 0x800E, 0xF00F⟩,
  ⟨"SNE_Vx__Vy", 0x9000, 0xF000⟩, ⟨"LD_I__NNN", 0xA000, 0xF000⟩, ⟨"JP_V0__NNN", 0xB000, 0xF000⟩,
  ⟨"RND_Vx__NN", 0xC000, 0xF000⟩, ⟨"DRW_Vx__Vy__N", 0xD000, 0xF000⟩]

/-- Groups 0xE and 0xF of R76. -/
def opcodeRowsHigh : List OpcodeRow := [
  ⟨"SKP_Vx", 0xE09E, 0xF0FF⟩, ⟨"SKNP_Vx", 0xE0A1, 0xF0FF⟩, ⟨"LD_Vx__DT", 0xF007, 0xF0FF⟩, ⟨"LD_Vx__K", 0xF00A, 0xF0FF⟩,
  ⟨"LD_DT__Vx", 0xF015, 0xF0FF⟩, ⟨"LD_ST__Vx", 0xF018, 0xF0FF⟩, ⟨"ADD_I__Vx", 0xF01E, 0xF0FF⟩,
  ⟨"LD_F__Vx", 0xF029, 0xF0FF⟩, ⟨"LD_B__Vx", 0xF033, 0xF0FF⟩, ⟨"LD__I___Vx", 0xF055, 0xF0FF⟩,
  ⟨"LD_Vx___I", 0xF065, 0xF0FF⟩]

/-- The opcode table (R76): "The complete instruction set: 34 instructions." -/
def opcodeTable : List OpcodeRow := opcodeRowsLow ++ opcodeRowsMid ++ opcodeRowsHigh

/-- The mnemonic of an instruction's row in spec/opcode_table.json (R82). -/
def Instr.mnemonic : Instr → String
  | .cls => "CLS"
  | .ret => "RET"
  | .jp _ => "JP_NNN"
  | .call _ => "CALL_NNN"
  | .seVxNn _ _ => "SE_Vx__NN"
  | .sneVxNn _ _ => "SNE_Vx__NN"
  | .seVxVy _ _ _ => "SE_Vx__Vy"
  | .ldVxNn _ _ => "LD_Vx__NN"
  | .addVxNn _ _ => "ADD_Vx__NN"
  | .ldVxVy _ _ => "LD_Vx__Vy"
  | .orVxVy _ _ => "OR_Vx__Vy"
  | .andVxVy _ _ => "AND_Vx__Vy"
  | .xorVxVy _ _ => "XOR_Vx__Vy"
  | .addVxVy _ _ => "ADD_Vx__Vy"
  | .subVxVy _ _ => "SUB_Vx__Vy"
  | .shrVx _ _ => "SHR_Vx"
  | .subnVxVy _ _ => "SUBN_Vx__Vy"
  | .shlVx _ _ => "SHL_Vx"
  | .sneVxVy _ _ _ => "SNE_Vx__Vy"
  | .ldI _ => "LD_I__NNN"
  | .jpV0 _ => "JP_V0__NNN"
  | .rnd _ _ => "RND_Vx__NN"
  | .drw _ _ _ => "DRW_Vx__Vy__N"
  | .skp _ => "SKP_Vx"
  | .sknp _ => "SKNP_Vx"
  | .ldVxDt _ => "LD_Vx__DT"
  | .ldVxK _ => "LD_Vx__K"
  | .ldDtVx _ => "LD_DT__Vx"
  | .ldStVx _ => "LD_ST__Vx"
  | .addIVx _ => "ADD_I__Vx"
  | .ldFVx _ => "LD_F__Vx"
  | .ldBVx _ => "LD_B__Vx"
  | .storeVx _ => "LD__I___Vx"
  | .loadVx _ => "LD_Vx___I"

end Sys2Proof
end

