-- ==== Sys2Proof/Config.lean ====
section
/-! DEFINITION. What CORE fixes (spec 00_scope.md R7), and the two things the spec leaves open as inputs (R8): the keypad
contents before the host's first write (`K_INIT`) and the random source (`RND`). The dialect parameters of R8 that a model may
flip stand in Machine/Params.lean. -/

namespace Sys2Proof

/-- `MEM_SIZE`: addresses 0x000 to 0xFFF (R7). -/
@[simp] abbrev Config.memSize : Nat := 0x1000

/-- `PROG_BASE`: where `LOAD` puts the program and where PC starts (R7). -/
@[simp] abbrev Config.progBase : Nat := 0x200

/-- `PROG_MAX` = 0x1000 - 0x200: the longest program `LOAD` accepts (R7). -/
@[simp] abbrev Config.progMax : Nat := 0xE00

/-- `STACK_DEPTH` (R7). -/
@[simp] abbrev Config.stackDepth : Nat := 16

/-- `FB_W` (R7). -/
@[simp] abbrev Config.fbWidth : Nat := 64

/-- `FB_H` (R7). -/
@[simp] abbrev Config.fbHeight : Nat := 32

/-- `K_INIT`, the keypad before the host's first write, is an open argument of the model (R8, R30, D26): every statement about
reset takes it as an argument (`Machine.State.resetWith`). This is the one value `Machine.State.reset` uses: no key down.
DESIGN CHOICE, unsafe (log entry 1). -/
def Config.kInit : Vector Bool 16 := Vector.replicate 16 false

/-- The random source: the `n`th byte the host injects, for the draws whose byte the state does not already hold. It has no body:
"a free draw: any of the 256 values, under no law" (45_keypad_timers_random.md R166; 60_exceptions.md R185; D27). Log entry 2. -/
opaque Config.rndByte : Nat → Byte

end Sys2Proof
end

