-- ==== Sys2Proof/Machine/Params.lean ====
section
/-! DEFINITION. The parameters of spec 00_scope.md R8: the dialect points its source leaves open, each at the value the spec
takes. "A model may carry each as a configuration field whose default is the value given, and every rule of this spec is written
for that default." The meanings read them here and nowhere else, so that flipping one needs no other change
(92_eei_decisions.md; log entry 10). -/

namespace Sys2Proof.Machine

/-- `SPRITE_WRAP` (D6): false, sprite pixels past the right or bottom edge are clipped. -/
def Params.spriteWrap : Bool := false

/-- `SKIP_BYTES` (D5): how far a taken skip moves PC beyond the normal advance. -/
def Params.skipBytes : Word := 2

/-- `SHIFT_USES_VY` (D8): false, the shifts shift V[X] in place. -/
def Params.shiftUsesVy : Bool := false

/-- `LOGIC_RESETS_VF` (D10): false, OR, AND and XOR leave VF alone. -/
def Params.logicResetsVf : Bool := false

/-- `LOADSTORE_INCREMENTS_I` (D12): false, the block store and load leave I alone. -/
def Params.loadStoreIncrementsI : Bool := false

/-- `JUMP_OFFSET_REG` (D13): the register `BNNN` adds, V0. -/
def Params.jumpOffsetReg : RegNum := 0

/-- `FONT_INSTALL` (D15): true, `RESET` installs the font. -/
def Params.fontInstall : Bool := true

/-- `FONT_BASE` (D15): where the font stands. -/
def Params.fontBase : Nat := 0x050

end Sys2Proof.Machine
end

