-- ==== Sys2Proof/Machine/Memory.lean ====
section
/-! DEFINITION. MEM, the 4096 bytes of the one address space (spec 20_memory.md R50, R55, 10_state.md R32), as a list of the
bytes that differ from what `RESET` leaves: addresses strictly rising, all at or below 0xFFF, no entry equal to the reset
contents. An address that is not listed reads as its reset contents (R37). -/

namespace Sys2Proof.Machine

/-- MEM as the bytes that differ from the reset contents. -/
abbrev Memory := List Host.Cell

/-- The 16 glyphs of the font, 5 bytes each, top row first (R59). -/
def fontGlyphs : List (List Byte) := [
  [0xF0, 0x90, 0x90, 0x90, 0xF0], [0x20, 0x60, 0x20, 0x20, 0x70], [0xF0, 0x10, 0xF0, 0x80, 0xF0],
  [0xF0, 0x10, 0xF0, 0x10, 0xF0], [0x90, 0x90, 0xF0, 0x10, 0x10], [0xF0, 0x80, 0xF0, 0x10, 0xF0],
  [0xF0, 0x80, 0xF0, 0x90, 0xF0], [0xF0, 0x10, 0x20, 0x40, 0x40], [0xF0, 0x90, 0xF0, 0x90, 0xF0],
  [0xF0, 0x90, 0xF0, 0x10, 0xF0], [0xF0, 0x90, 0xF0, 0x90, 0x90], [0xE0, 0x90, 0xE0, 0x90, 0xE0],
  [0xF0, 0x80, 0x80, 0x80, 0xF0], [0xE0, 0x90, 0x90, 0x90, 0xE0], [0xF0, 0x80, 0xF0, 0x80, 0xF0],
  [0xF0, 0x80, 0xF0, 0x80, 0x80]]

/-- Row `j` of glyph `d`. -/
def fontByte (d j : Nat) : Byte := (fontGlyphs.getD d []).getD j 0

/-- What `RESET` leaves at an address (R37, R200): the font at `FONT_BASE`, zero everywhere else. It is what an unlisted address
reads as. -/
def resetByte (a : Nat) : Byte :=
  if Params.fontInstall && Params.fontBase ≤ a && a < Params.fontBase + 80 then
    fontByte ((a - Params.fontBase) / 5) ((a - Params.fontBase) % 5)
  else 0

/-- `MEM[a]` (R10). -/
def Memory.get : Memory → Nat → Byte
  | [], a => resetByte a
  | c :: m, a => if c.1 = a then c.2 else Memory.get m a

/-- Put a cell in front, unless it holds the reset contents of its address. -/
def Memory.cons (a : Nat) (b : Byte) (m : Memory) : Memory := if b = resetByte a then m else (a, b) :: m

/-- `MEM[a] <- b` (R10, R54: "a write changes exactly the addressed byte"), in the canonical form. -/
def Memory.set : Memory → Nat → Byte → Memory
  | [], a, b => Memory.cons a b []
  | c :: m, a, b =>
    if c.1 < a then c :: Memory.set m a b
    else if c.1 = a then Memory.cons a b m
    else Memory.cons a b (c :: m)

/-- Bytes written to consecutive addresses in ascending order (R53). -/
def Memory.setBlock : Memory → Nat → List Byte → Memory
  | m, _, [] => m
  | m, a, b :: bs => Memory.setBlock (Memory.set m a b) (a + 1) bs

/-- The canonical form: addresses strictly rising, none above 0xFFF (R50: "Nothing above 0xFFF exists"), no entry equal to what
an unlisted address reads as. -/
abbrev Memory.wf (m : Memory) : Prop :=
  m.Pairwise (fun c d => c.1 < d.1) ∧ ∀ c ∈ m, c.1 < Config.memSize ∧ c.2 ≠ resetByte c.1

end Sys2Proof.Machine
end

