-- ==== Sys2Proof/Machine/State.lean ====
section
/-! DEFINITION. All state of CORE (spec 10_state.md), as plain data, the reasons a step can stop, and the state after `RESET`
(R37). -/

namespace Sys2Proof.Machine

/-- FB (R31): 32 rows of 64 one-bit pixels. Row `y` counts from the top; bit `x` of a row is the pixel at column `x` from the
left. "How the 2048 bits are laid out in storage is not architectural." -/
abbrev Framebuffer := Vector (BitVec 64) 32

/-- FB with every pixel 0. -/
def Framebuffer.blank : Framebuffer := Vector.replicate 32 0

/-- The five error names (60_exceptions.md R170). -/
inductive ErrorName where
  | illegalOpcode
  | stackOverflow
  | stackUnderflow
  | programTooLarge
  | memoryOutOfBounds
  deriving DecidableEq, Repr

/-- The numeric code of an error (R170, D21). -/
def ErrorName.code : ErrorName → Nat
  | .illegalOpcode => 1
  | .stackOverflow => 2
  | .stackUnderflow => 3
  | .programTooLarge => 4
  | .memoryOutOfBounds => 5

/-- An error with its `info` (R172). `programTooLarge` is raised by `LOAD` only and is never latched (R178, R203). -/
inductive Cause where
  /-- `info` is the 16-bit word that matches no instruction -/
  | illegalOpcode (w : Word)
  /-- `info` is SP before the push -/
  | stackOverflow (sp : Byte)
  /-- `info` is SP before the pop -/
  | stackUnderflow (sp : Byte)
  /-- `info` is the number of bytes `LOAD` was given -/
  | programTooLarge (n : Nat)
  /-- `info` is the lowest byte address above 0xFFF that the step needed -/
  | memoryOutOfBounds (a : Nat)
  deriving DecidableEq, Repr

/-- The error's name `E`. -/
def Cause.name : Cause → ErrorName
  | .illegalOpcode _ => .illegalOpcode
  | .stackOverflow _ => .stackOverflow
  | .stackUnderflow _ => .stackUnderflow
  | .programTooLarge _ => .programTooLarge
  | .memoryOutOfBounds _ => .memoryOutOfBounds

/-- The error's `info` as a number (R172). -/
def Cause.info : Cause → Nat
  | .illegalOpcode w => w.toNat
  | .stackOverflow sp => sp.toNat
  | .stackUnderflow sp => sp.toNat
  | .programTooLarge n => n
  | .memoryOutOfBounds a => a

/-- The record `(E, pc, info)` that ERR holds (10_state.md R33, 60_exceptions.md R172). -/
structure ErrRecord where
  /-- `E` and `info` -/
  cause : Cause
  /-- `PC0`, the address of the instruction whose step failed -/
  pc : Word
  deriving DecidableEq, Repr

/-- Why a step has no next state. -/
inductive Fault where
  /-- Raised by `step` when ERR is set: "Nothing changes and the outcome is the recorded `ERROR(E, pc, info)` again"
  (40_step_cycle.md R98); a state with ERR set is "a fault state: never a final state of a successful run, with no transition but
  `RESET`" (60_exceptions.md R175). Safe (log entry 3). -/
  | errLatched (r : ErrRecord)
  /-- Raised by CALL and RET when SP is 17 to 255, values that "are never reached" (10_state.md R26, U24): there is no stack entry
  for them. Safe (log entry 4). -/
  | stackPointerRange (sp : Byte)
  deriving DecidableEq, Repr

/-- Why an instruction has no meaning. -/
inductive Refusal where
  /-- Raised by an arm of `exec` whose instruction has no meaning in the model yet. Safe. No arm answers it: every
  instruction of the table has its meaning. -/
  | notModelled (mnemonic : String)
  deriving DecidableEq, Repr

/-- The state of CORE: "there is no hidden global state" (10_state.md). -/
structure State where
  /-- V0 to VF (R20); `v[15]` is VF, the flag register (R21) -/
  v : Vector Byte 16
  /-- I, the index register (R23) -/
  idx : Word
  /-- PC, the program counter (R24) -/
  pc : Word
  /-- SP, the number of return addresses on the stack (R26) -/
  sp : Byte
  /-- STACK, 16 return addresses (R27) -/
  stack : Vector Word 16
  /-- DT, the delay timer (R28) -/
  dt : Byte
  /-- ST, the sound timer (R29) -/
  st : Byte
  /-- K, the keypad latch, `true` is down (R30) -/
  keys : Vector Bool 16
  /-- FB, the framebuffer (R31) -/
  fb : Framebuffer
  /-- MEM (R32) -/
  mem : Memory
  /-- ERR, the fault latch (R33) -/
  err : Option ErrRecord
  /-- The model's own: the bytes the host has already put on the random input `RND`, first to be used first (60_exceptions.md
  R185; log entry 2). Not state of CORE (R35). -/
  rndIn : List Byte
  /-- The model's own: how many random bytes have been used; it picks the next free byte when `rndIn` is empty (log entry 2). -/
  rndUsed : Nat
  deriving DecidableEq, Repr

/-- The state right after `RESET` with the keypad `k` (10_state.md R37, 70_reset_and_hazards.md R200). -/
def State.resetWith (k : Vector Bool 16) : State where
  v := Vector.replicate 16 0
  idx := 0
  pc := 0x200
  sp := 0
  stack := Vector.replicate 16 0
  dt := 0
  st := 0
  keys := k
  fb := Framebuffer.blank
  mem := []
  err := none
  rndIn := []
  rndUsed := 0

/-- The state right after reset. K is `K_INIT`, which the spec leaves open: `Config.kInit` (log entry 1). -/
def State.reset : State := State.resetWith Config.kInit

end Sys2Proof.Machine
end

