-- ==== Sys2Proof/Machine/Ops.lean ====
section
/-! DEFINITION. The named operations over the state that the meanings are written with: registers, PC, the stack, memory blocks,
the framebuffer, the random input, raising an error. There is one way to raise an error (`State.raise`); there is no return from
one (spec 60_exceptions.md R176: "There is no return-from-error instruction and nothing to return to"). -/

namespace Sys2Proof.Machine

/-! ## Registers (00_scope.md R10) -/

/-- `V[r]` -/
def State.getV (s : State) (r : RegNum) : Byte := s.v[r.val]

/-- `V[r] <- b` -/
def State.setV (s : State) (r : RegNum) (b : Byte) : State := { s with v := s.v.set r.val b r.isLt }

/-- `I <- a` -/
def State.setIdx (s : State) (a : Word) : State := { s with idx := a }

/-- `PC <- a` -/
def State.setPc (s : State) (a : Word) : State := { s with pc := a }

/-- `DT <- b` -/
def State.setDt (s : State) (b : Byte) : State := { s with dt := b }

/-- `ST <- b` -/
def State.setSt (s : State) (b : Byte) : State := { s with st := b }

/-- `MEM` replaced -/
def State.setMem (s : State) (m : Memory) : State := { s with mem := m }

/-- `FB` replaced -/
def State.setFb (s : State) (fb : Framebuffer) : State := { s with fb := fb }

/-! ## PC (10_state.md R24, R25) -/

/-- `PCn = PC0 + 2`, the address of the next sequential instruction (R13). -/
def State.pcNext (s : State) : Word := s.pc + 2

/-- PC advanced over the instruction, "before dispatch" (40_step_cycle.md R92). A meaning is applied to the state whose PC is the
instruction's own address `PC0` and begins with this; a stall and an error leave `PC0` by not doing it (log entry 5). -/
def State.advance (s : State) : State := s.setPc s.pcNext

/-- A skip (41_control_flow.md R108): PC is `PCn`, and `SKIP_BYTES` more when the condition holds. -/
def State.skipIf (s : State) (taken : Bool) : State :=
  s.setPc (if taken then s.pcNext + Params.skipBytes else s.pcNext)

/-! ## Raising an error (60_exceptions.md R170 to R176) -/

/-- `raise E(info)`: "the step changes no state except ERR", `ERR <- (E, PC0, info)` (40_step_cycle.md R97, R172). -/
def State.raise (s : State) (c : Cause) : State := { s with err := some ⟨c, s.pc⟩ }

/-! ## The stack (10_state.md R26, R27) -/

/-- `STACK[k] <- a; SP <- SP + 1`, `k` being the old SP. -/
def State.push (s : State) (k : RegNum) (a : Word) : State :=
  { s with stack := s.stack.set k.val a k.isLt, sp := s.sp + 1 }

/-- `SP <- SP - 1`; the popped entry is not cleared (41_control_flow.md R102). -/
def State.pop (s : State) : State := { s with sp := s.sp - 1 }

/-! ## Memory (00_scope.md R11, 20_memory.md R57) -/

/-- `MemRead(addr, 1)`, `addr` an unbounded number. -/
def State.memRead (s : State) (a : Nat) : Except Cause Byte :=
  if a > 0xFFF then .error (.memoryOutOfBounds a) else .ok (s.mem.get a)

/-- `MemRead(PC0, 2)`, instruction fetch (40_step_cycle.md R91): big-endian, "a raise from the first byte takes precedence". -/
def State.fetch (s : State) : Except Cause Word :=
  match s.memRead s.pc.toNat with
  | .error c => .error c
  | .ok hi =>
    match s.memRead (s.pc.toNat + 1) with
    | .error c => .error c
    | .ok lo => .ok (wordOfBytes hi lo)

/-- The check of all addresses of an instruction that accesses the `n` bytes from I upwards (43_index_memory.md R146): "the single
test `I + last_offset <= 0xFFF`, and the address reported is the lowest out-of-range one, `max(I, 0x1000)`". -/
def State.blockError (s : State) (n : Nat) : Option Cause :=
  if n > 0 ∧ s.idx.toNat + (n - 1) > 0xFFF then some (.memoryOutOfBounds (max s.idx.toNat 0x1000)) else none

/-- The `n` bytes from I upwards, in ascending order. -/
def State.readBlock (s : State) (n : Nat) : List Byte := (List.range n).map fun k => s.mem.get (s.idx.toNat + k)

/-- Bytes stored from I upwards, in ascending order. -/
def State.writeBlock (s : State) (bs : List Byte) : State := s.setMem (s.mem.setBlock s.idx.toNat bs)

/-- Bytes put into V[k], V[k+1], ... in ascending order. -/
def State.setVs (s : State) : Nat → List Byte → State
  | _, [] => s
  | k, b :: bs => State.setVs (if h : k < 16 then s.setV ⟨k, h⟩ b else s) (k + 1) bs

/-! ## The framebuffer (10_state.md R31) -/

/-- `FB[y][x]`, false outside the grid. -/
def Framebuffer.pixel (fb : Framebuffer) (y x : Nat) : Bool := if h : y < 32 then fb[y].getLsbD x else false

/-- `FB[y][x] <- FB[y][x] ^ 1`; nothing outside the grid. -/
def Framebuffer.toggle (fb : Framebuffer) (y x : Nat) : Framebuffer :=
  if h : y < 32 then fb.set y (fb[y] ^^^ (1#64 <<< x)) else fb

/-! ## The random input (60_exceptions.md R185) -/

/-- `Rand()`: the next byte of the injected random source, the host's own if it has put one on the input, else a free byte. -/
def State.rand (s : State) : Byte :=
  match s.rndIn with
  | b :: _ => b
  | [] => Config.rndByte s.rndUsed

/-- The byte is used: "one byte per executed `CXNN`". -/
def State.useRand (s : State) : State := { s with rndIn := s.rndIn.tail, rndUsed := s.rndUsed + 1 }

/-- The bytes on the random input replaced. -/
def State.withRandIn (s : State) (bs : List Byte) : State := { s with rndIn := bs }

/-! ## Results -/

/-- V[x] is written first, VF last, "so VF always ends as the flag" (42_alu.md R132, 10_state.md R39, D9). -/
def State.setVFlag (s : State) (x : RegNum) (b flag : Byte) : State := (s.setV x b).setV vf flag

/-- The result of OR, AND and XOR: V[x] alone, unless `LOGIC_RESETS_VF` (D10). -/
def State.setVLogic (s : State) (x : RegNum) (b : Byte) : State :=
  if Params.logicResetsVf then s.setVFlag x b 0 else s.setV x b

/-- I after a block of `n` bytes was stored or loaded: unchanged, unless `LOADSTORE_INCREMENTS_I` (D12). -/
def State.idxAfterBlock (s : State) (n : Nat) : State :=
  if Params.loadStoreIncrementsI then s.setIdx (s.idx + BitVec.ofNat 16 n) else s

end Sys2Proof.Machine
end

