-- ==== Sys2Proof/Machine/Flags.lean ====
section
/-! DEFINITION. The flag computations: the value VF receives (spec 10_state.md R39, 42_alu.md R131). VF is 1 when the named
condition holds and 0 when it does not (90_conflicts.md C2). -/

namespace Sys2Proof.Machine

/-- A condition as the value of VF. -/
def flagByte (c : Bool) : Byte := if c then 1 else 0

/-- The exact sum, "the pre-truncation 9-bit result" (R126, R131). -/
def sum9 (a b : Byte) : BitVec 9 := a.setWidth 9 + b.setWidth 9

/-- `s[7:0]` of the exact sum. -/
def sumByte (a b : Byte) : Byte := (sum9 a b).setWidth 8

/-- `s[8]` of the exact sum: "Carry is 1 exactly when the exact sum exceeds 255" (R131). -/
def carryFlag (a b : Byte) : Byte := flagByte ((sum9 a b).getLsbD 8)

/-- `(a - b) mod 256` (R127, R129). -/
def differenceByte (a b : Byte) : Byte := a - b

/-- No borrow of `a - b`: "1 exactly when the minuend is greater than or equal to the subtrahend" (R131). -/
def noBorrowFlag (a b : Byte) : Byte := flagByte (decide (b.toNat ≤ a.toNat))

/-- The bit a right shift by one moves out (R128). -/
def shiftedOutRight (a : Byte) : Byte := flagByte (a.getLsbD 0)

/-- The bit a left shift by one moves out (R130). -/
def shiftedOutLeft (a : Byte) : Byte := flagByte (a.getLsbD 7)

/-- The pixels of a list toggled in order, and whether any of them went from set to unset (44_display.md R151). -/
def drawPixels : List (Nat × Nat) → Framebuffer → Bool → Framebuffer × Bool
  | [], fb, coll => (fb, coll)
  | p :: ps, fb, coll => drawPixels ps (fb.toggle p.1 p.2) (coll || fb.pixel p.1 p.2)

end Sys2Proof.Machine
end

