-- ==== Sys2Proof/Machine/Operands.lean ====
section
/-! DEFINITION. The operand forms of CORE: the zero-extended address field, the low nibble of a register, the font glyph's
address, the shifted register, the decimal digits, the block of registers, the sprite's pixels on the screen (spec
30_encoding.md R72, 43_index_memory.md R142 to R146, 44_display.md R152). -/

namespace Sys2Proof.Machine

/-- `zext_16(NNN)` (R72): "not scaled or shifted". -/
def addrOperand (nnn : Addr) : Word := nnn.setWidth 16

/-- `b[3:0]` as a key number or a glyph number: "the high 4 bits are ignored" (R142, R160, R161, D16, D17). -/
def lowNibble (b : Byte) : RegNum := ⟨b.toNat % 16, Nat.mod_lt _ (by decide)⟩

/-- `FONT_BASE + 5 * d`, the address of glyph `d` (R142). -/
def glyphAddress (d : RegNum) : Word := BitVec.ofNat 16 (Params.fontBase + 5 * d.val)

/-- The target of `BNNN`: NNN and the offset register, both zero-extended, "no wrap, no mask" (41_control_flow.md R103). -/
def offsetTarget (s : State) (nnn : Addr) : Word := addrOperand nnn + (s.getV Params.jumpOffsetReg).setWidth 16

/-- The register a shift reads: V[X], unless `SHIFT_USES_VY` (42_alu.md R128, R130, D8). -/
def shiftOperand (s : State) (x y : RegNum) : Byte := if Params.shiftUsesVy then s.getV y else s.getV x

/-- Hundreds, tens and ones of a byte (R143). -/
def bcdDigits (b : Byte) : List Byte :=
  [BitVec.ofNat 8 (b.toNat / 100), BitVec.ofNat 8 (b.toNat / 10 % 10), BitVec.ofNat 8 (b.toNat % 10)]

/-- V[0] to V[x], inclusive, ascending (R144). -/
def registersThrough (s : State) (x : RegNum) : List Byte := s.v.toList.take (x.val + 1)

/-- The number of bytes a block store or load through V[x] moves (20_memory.md R53). -/
def blockLength (x : RegNum) : Nat := x.val + 1

/-- The least key that is down (45_keypad_timers_random.md R162). -/
def lowestKeyDown (s : State) : Option Nat := s.keys.toList.findIdx? id

/-- Key `k` is down. -/
def keyDown (s : State) (k : RegNum) : Bool := s.keys[k.val]

/-- Where the pixel in row `r`, column `c` of a sprite at `(x0, y0)` goes, as `(y, x)`, or nowhere when it is clipped (44_display.md
R152); every pixel goes somewhere when `SPRITE_WRAP` (D6). -/
def spritePosition (x0 y0 r c : Nat) : Option (Nat × Nat) :=
  if Params.spriteWrap then some ((y0 + r) % 32, (x0 + c) % 64)
  else if y0 + r > 31 then none
  else if x0 + c > 63 then none
  else some (y0 + r, x0 + c)

/-- The positions of the set bits of one sprite row, left to right: column `c` is bit `7 - c` (R152, D7). -/
def rowPixels (x0 y0 r : Nat) (b : Byte) : List (Nat × Nat) :=
  (List.range 8).filterMap fun c => if b.getLsbD (7 - c) then spritePosition x0 y0 r c else none

/-- The positions of the set bits of sprite rows `r`, `r + 1`, ..., top to bottom. -/
def spritePixels (x0 y0 : Nat) : Nat → List Byte → List (Nat × Nat)
  | _, [] => []
  | r, b :: bs => rowPixels x0 y0 r b ++ spritePixels x0 y0 (r + 1) bs

end Sys2Proof.Machine
end

