-- ==== Sys2Proof/Machine/Alu.lean ====
section
/-! DEFINITION. Load-immediate, arithmetic, logic and shift instructions (spec 42_alu.md R120 to R132). Every one reads its
sources in the state before it, then writes V[X], then VF (R132). -/

namespace Sys2Proof.Machine

/-- `6XNN` LD Vx, NN (R120) -/
def execLdVxNn (x : RegNum) (nn : Byte) (s : State) : Host.Outcome State Fault Refusal :=
  .next (s.advance.setV x nn)

/-- `7XNN` ADD Vx, NN (R121): "the carry is discarded" -/
def execAddVxNn (x : RegNum) (nn : Byte) (s : State) : Host.Outcome State Fault Refusal :=
  .next (s.advance.setV x (sumByte (s.getV x) nn))

/-- `8XY0` LD Vx, Vy (R122) -/
def execLdVxVy (x y : RegNum) (s : State) : Host.Outcome State Fault Refusal :=
  .next (s.advance.setV x (s.getV y))

/-- `8XY1` OR Vx, Vy (R123) -/
def execOrVxVy (x y : RegNum) (s : State) : Host.Outcome State Fault Refusal :=
  .next (s.advance.setVLogic x (s.getV x ||| s.getV y))

/-- `8XY2` AND Vx, Vy (R124) -/
def execAndVxVy (x y : RegNum) (s : State) : Host.Outcome State Fault Refusal :=
  .next (s.advance.setVLogic x (s.getV x &&& s.getV y))

/-- `8XY3` XOR Vx, Vy (R125) -/
def execXorVxVy (x y : RegNum) (s : State) : Host.Outcome State Fault Refusal :=
  .next (s.advance.setVLogic x (s.getV x ^^^ s.getV y))

/-- `8XY4` ADD Vx, Vy (R126) -/
def execAddVxVy (x y : RegNum) (s : State) : Host.Outcome State Fault Refusal :=
  .next (s.advance.setVFlag x (sumByte (s.getV x) (s.getV y)) (carryFlag (s.getV x) (s.getV y)))

/-- `8XY5` SUB Vx, Vy (R127) -/
def execSubVxVy (x y : RegNum) (s : State) : Host.Outcome State Fault Refusal :=
  .next (s.advance.setVFlag x (differenceByte (s.getV x) (s.getV y)) (noBorrowFlag (s.getV x) (s.getV y)))

/-- `8XY6` SHR Vx (R128) -/
def execShrVx (x y : RegNum) (s : State) : Host.Outcome State Fault Refusal :=
  .next (s.advance.setVFlag x (shiftOperand s x y >>> 1) (shiftedOutRight (shiftOperand s x y)))

/-- `8XY7` SUBN Vx, Vy (R129) -/
def execSubnVxVy (x y : RegNum) (s : State) : Host.Outcome State Fault Refusal :=
  .next (s.advance.setVFlag x (differenceByte (s.getV y) (s.getV x)) (noBorrowFlag (s.getV y) (s.getV x)))

/-- `8XYE` SHL Vx (R130) -/
def execShlVx (x y : RegNum) (s : State) : Host.Outcome State Fault Refusal :=
  .next (s.advance.setVFlag x (shiftOperand s x y <<< 1) (shiftedOutLeft (shiftOperand s x y)))

end Sys2Proof.Machine
end

