-- ==== Sys2Proof/Machine/ControlFlow.lean ====
section
/-! DEFINITION. Jump, call, return and skip (spec 41_control_flow.md R100 to R109). "None of these instructions writes a general
register, VF, I, MEM, FB, DT or ST." -/

namespace Sys2Proof.Machine

/-- `00EE` RET (R102): "the popped entry is left in STACK unchanged". SP above 16 is a state CORE never reaches (R26, U24). -/
def execRet (s : State) : Host.Outcome State Fault Refusal :=
  if s.sp = 0 then .next (s.raise (.stackUnderflow s.sp))
  else if h : s.sp.toNat - 1 < 16 then .next (s.pop.setPc s.stack[s.sp.toNat - 1])
  else .fault (.stackPointerRange s.sp)

/-- `1NNN` JP NNN (R100): "the target is not checked when the jump executes" -/
def execJp (nnn : Addr) (s : State) : Host.Outcome State Fault Refusal :=
  .next (s.setPc (addrOperand nnn))

/-- `2NNN` CALL NNN (R101): `PCn` is pushed. SP above 16 is a state CORE never reaches (R26, U24). -/
def execCall (nnn : Addr) (s : State) : Host.Outcome State Fault Refusal :=
  if s.sp = 16 then .next (s.raise (.stackOverflow s.sp))
  else if h : s.sp.toNat < 16 then .next ((s.push ⟨s.sp.toNat, h⟩ s.pcNext).setPc (addrOperand nnn))
  else .fault (.stackPointerRange s.sp)

/-- `3XNN` SE Vx, NN (R104) -/
def execSeVxNn (x : RegNum) (nn : Byte) (s : State) : Host.Outcome State Fault Refusal :=
  .next (s.skipIf (s.getV x == nn))

/-- `4XNN` SNE Vx, NN (R105) -/
def execSneVxNn (x : RegNum) (nn : Byte) (s : State) : Host.Outcome State Fault Refusal :=
  .next (s.skipIf (s.getV x != nn))

/-- `5XY_` SE Vx, Vy (R106); `w[3:0]` is not examined (R75) -/
def execSeVxVy (x y : RegNum) (s : State) : Host.Outcome State Fault Refusal :=
  .next (s.skipIf (s.getV x == s.getV y))

/-- `9XY_` SNE Vx, Vy (R107); `w[3:0]` is not examined (R75) -/
def execSneVxVy (x y : RegNum) (s : State) : Host.Outcome State Fault Refusal :=
  .next (s.skipIf (s.getV x != s.getV y))

/-- `BNNN` JP V0, NNN (R103) -/
def execJpV0 (nnn : Addr) (s : State) : Host.Outcome State Fault Refusal :=
  .next (s.setPc (offsetTarget s nnn))

end Sys2Proof.Machine
end

