-- ==== Sys2Proof/Machine/Display.lean ====
section
/-! DEFINITION. Display instructions (spec 44_display.md R150 to R153). -/

namespace Sys2Proof.Machine

/-- `00E0` CLS (R150): "VF is not written" -/
def execCls (s : State) : Host.Outcome State Fault Refusal :=
  .next (s.advance.setFb Framebuffer.blank)

/-- What `DXYN` draws: the sprite's `n` rows at `(V[X] mod 64, V[Y] mod 32)`, read before VF is written (R151, R152). -/
def drawSprite (s : State) (x y : RegNum) (n : Nat) : Framebuffer × Bool :=
  drawPixels (spritePixels ((s.getV x).toNat % 64) ((s.getV y).toNat % 32) 0 (s.readBlock n)) s.fb false

/-- `DXYN` DRW Vx, Vy, N (R151): all `n` addresses are checked, then the pixels are drawn, then VF is the collision flag -/
def execDrw (x y : RegNum) (n : Nat) (s : State) : Host.Outcome State Fault Refusal :=
  match s.blockError n with
  | some c => .next (s.raise c)
  | none => .next ((s.advance.setFb (drawSprite s x y n).1).setV vf (flagByte (drawSprite s x y n).2))

end Sys2Proof.Machine
end

