-- ==== Sys2Proof/Machine/IndexMemory.lean ====
section
/-! DEFINITION. Index-register and memory instructions (spec 43_index_memory.md R140 to R146). "An instruction checks all of its
addresses before it writes anything" (R146). -/

namespace Sys2Proof.Machine

/-- `ANNN` LD I, NNN (R140) -/
def execLdI (nnn : Addr) (s : State) : Host.Outcome State Fault Refusal :=
  .next (s.advance.setIdx (addrOperand nnn))

/-- `FX1E` ADD I, Vx (R141): modulo 65536, VF not written -/
def execAddIVx (x : RegNum) (s : State) : Host.Outcome State Fault Refusal :=
  .next (s.advance.setIdx (s.idx + (s.getV x).setWidth 16))

/-- `FX29` LD F, Vx (R142): "computes an address and reads no memory" -/
def execLdFVx (x : RegNum) (s : State) : Host.Outcome State Fault Refusal :=
  .next (s.advance.setIdx (glyphAddress (lowNibble (s.getV x))))

/-- `FX33` LD B, Vx (R143) -/
def execLdBVx (x : RegNum) (s : State) : Host.Outcome State Fault Refusal :=
  match s.blockError 3 with
  | some c => .next (s.raise c)
  | none => .next (s.advance.writeBlock (bcdDigits (s.getV x)))

/-- `FX55` LD [I], Vx (R144) -/
def execStoreVx (x : RegNum) (s : State) : Host.Outcome State Fault Refusal :=
  match s.blockError (blockLength x) with
  | some c => .next (s.raise c)
  | none => .next ((s.advance.writeBlock (registersThrough s x)).idxAfterBlock (blockLength x))

/-- `FX65` LD Vx, [I] (R145) -/
def execLoadVx (x : RegNum) (s : State) : Host.Outcome State Fault Refusal :=
  match s.blockError (blockLength x) with
  | some c => .next (s.raise c)
  | none => .next ((s.advance.setVs 0 (s.readBlock (blockLength x))).idxAfterBlock (blockLength x))

end Sys2Proof.Machine
end

