-- ==== Sys2Proof/Machine/KeypadTimersRandom.lean ====
section
/-! DEFINITION. Keypad, timer and random instructions (spec 45_keypad_timers_random.md R160 to R166). -/

namespace Sys2Proof.Machine

/-- `EX9E` SKP Vx (R160) -/
def execSkp (x : RegNum) (s : State) : Host.Outcome State Fault Refusal :=
  .next (s.skipIf (keyDown s (lowNibble (s.getV x))))

/-- `EXA1` SKNP Vx (R161) -/
def execSknp (x : RegNum) (s : State) : Host.Outcome State Fault Refusal :=
  .next (s.skipIf (!keyDown s (lowNibble (s.getV x))))

/-- `FX0A` LD Vx, K (R162): with no key down the step stalls, "whole state as before the STEP, PC = PC0" (40_step_cycle.md R96) -/
def execLdVxK (x : RegNum) (s : State) : Host.Outcome State Fault Refusal :=
  match lowestKeyDown s with
  | none => .next s
  | some k => .next (s.advance.setV x (BitVec.ofNat 8 k))

/-- `FX07` LD Vx, DT (R163) -/
def execLdVxDt (x : RegNum) (s : State) : Host.Outcome State Fault Refusal :=
  .next (s.advance.setV x s.dt)

/-- `FX15` LD DT, Vx (R164) -/
def execLdDtVx (x : RegNum) (s : State) : Host.Outcome State Fault Refusal :=
  .next (s.advance.setDt (s.getV x))

/-- `FX18` LD ST, Vx (R165) -/
def execLdStVx (x : RegNum) (s : State) : Host.Outcome State Fault Refusal :=
  .next (s.advance.setSt (s.getV x))

/-- `CXNN` RND Vx, NN (R166): "the byte is still consumed" whatever NN is -/
def execRnd (x : RegNum) (nn : Byte) (s : State) : Host.Outcome State Fault Refusal :=
  .next (s.advance.useRand.setV x (s.rand &&& nn))

end Sys2Proof.Machine
end

