-- ==== Sys2Proof/Machine/Step.lean ====
section
/-! DEFINITION. `STEP`, the command that executes one instruction (spec 40_step_cycle.md R90 to R99): fetch, decode, execute; the
first cause of an error is the one raised (60_exceptions.md R173). -/

namespace Sys2Proof.Machine

/-- One `STEP` (R99). A step that ends in an error has a next state, the one with ERR set (R97); a step that stalls has the state
it began in as its next state (R96); with ERR set there is no step (R98, R175). -/
def step (s : State) : Host.Outcome State Fault Refusal :=
  match s.err with
  | some r => .fault (.errLatched r)
  | none =>
    match s.fetch with
    | .error c => .next (s.raise c)
    | .ok w =>
      match decodeWord w with
      | .error _ => .next (s.raise (.illegalOpcode w))
      | .ok i => exec i s

/-- Where the next instruction can be fetched from: PC, or the program base when no instruction fits at PC. -/
def State.fetchAddress (s : State) : Word := if s.pc.toNat ≤ 0xFFE then s.pc else BitVec.ofNat 16 Config.progBase

/-- `s` with the instruction whose bits are `w` (bit 0 the least significant of the word, the bits above `nbits` zero) stored where
`step` fetches its next instruction. The fetch needs ERR clear (R98) and an instruction to fit at PC (R91), so ERR is cleared and
PC moved to 0x200 where it does not fit; nothing else changes. It stands for the host's `LOAD` (log entry 7). -/
def State.withFetchWord (s : State) (nbits w : Nat) : State :=
  { s with
    err := none
    pc := s.fetchAddress
    mem := s.mem.setBlock s.fetchAddress.toNat (bytesOfWord (BitVec.ofNat 16 (w % 2 ^ nbits))) }

end Sys2Proof.Machine
end

