-- ==== Sys2Proof/Machine/Commands.lean ====
section
/-! DEFINITION. The host's commands and views (spec 60_exceptions.md R181 to R186, 70_reset_and_hazards.md R200 to R203): "CORE is
driven by whole commands, one at a time: `RESET`, `LOAD(bytes)`, `STEP(rnd)`, `TICK`, `KEYWRITE(k, b)`, and the read views." Each
is atomic; "every interleaving of whole commands is legal" (R186), so a run of CORE is a list of commands. -/

namespace Sys2Proof.Machine

/-! ## The commands' effects -/

/-- `RESET` (R200): every element at its value of R37, "K is not touched"; the random source is outside CORE (R201). -/
def State.resetCommand (s : State) : State :=
  { State.resetWith s.keys with rndIn := s.rndIn, rndUsed := s.rndUsed }

/-- `LOAD(bytes)` on a CORE whose ERR is clear and for a program that fits (R203). -/
def State.loadProgram (s : State) (bytes : List Byte) : State := s.setMem (s.mem.setBlock Config.progBase bytes)

/-- "each decremented toward zero ...; never decrement below zero" (R28, R181). -/
def timerTick (b : Byte) : Byte := if b = 0 then 0 else b - 1

/-- `TICK` (R181): nothing while ERR is set (R175). -/
def State.tick (s : State) : State :=
  match s.err with
  | some _ => s
  | none => (s.setDt (timerTick s.dt)).setSt (timerTick s.st)

/-- `KEYWRITE(k, b)` (R182): "accepted in every condition of CORE, ERR set included, and touches nothing but K". -/
def State.keyWrite (s : State) (k : RegNum) (down : Bool) : State := { s with keys := s.keys.set k.val down k.isLt }

/-! ## The views -/

/-- The sound output `SOUND` (R184). -/
def State.sound (s : State) : Bool := s.st != 0

/-- The framebuffer port (R183): `FB[y][x]`. -/
def State.pixel (s : State) (y x : Nat) : Bool := s.fb.pixel y x

/-! ## The command interface (R186) -/

/-- One command of the host. -/
inductive Command where
  | reset
  | load (bytes : List Byte)
  /-- with the byte on the random input (R185) -/
  | step (rnd : Byte)
  | tick
  | keyWrite (k : RegNum) (down : Bool)
  deriving DecidableEq, Repr

/-- What a command returns; the names the spec does not give are the model's (log entry 11). -/
inductive Response where
  /-- `OK` (R95, R203); also a command that returns nothing -/
  | ok
  /-- `HALTED` (R96) -/
  | halted
  /-- `ERROR(E, pc, info)` (R97, R98) -/
  | error (r : ErrRecord)
  /-- a refused `LOAD` (R203): an error with no instruction address, not latched -/
  | programTooLarge (n : Nat)
  /-- a `TICK` or a `LOAD` that does nothing because ERR is set (R175) -/
  | ignored
  /-- a `STEP` in a state the spec says is never reached (log entry 4) -/
  | stuck (f : Fault)
  /-- a `STEP` on an instruction without a meaning; there is none -/
  | refused (r : Refusal)
  deriving DecidableEq, Repr

/-- The instruction that the next `STEP` executes, if it gets that far (R91, R93). -/
def State.nextInstr (s : State) : Option Instr :=
  match s.fetch with
  | .error _ => none
  | .ok w =>
    match decodeWord w with
    | .error _ => none
    | .ok i => some i

/-- The next `STEP` is a wait for a key with no key down (R96, R162). -/
def State.stalls (s : State) : Bool :=
  match s.nextInstr with
  | some (.ldVxK _) => (lowestKeyDown s).isNone
  | _ => false

/-- `STEP(rnd)` (R90): the new state and the outcome. The byte is used only if the step executes `CXNN` (R185); it never stays on
the input. -/
def State.stepCommand (s : State) (rnd : Byte) : State × Response :=
  match s.err with
  | some r => (s, .error r)
  | none =>
    if s.stalls then (s, .halted)
    else
      match step (s.withRandIn [rnd]) with
      | .fault f => (s, .stuck f)
      | .refused r => (s, .refused r)
      | .next t =>
        (t.withRandIn s.rndIn,
          match t.err with
          | some r => .error r
          | none => .ok)

/-- `LOAD(bytes)` (R203): nothing while ERR is set; a program of more than 3584 bytes is refused whole. -/
def State.loadCommand (s : State) (bytes : List Byte) : State × Response :=
  match s.err with
  | some _ => (s, .ignored)
  | none =>
    if bytes.length > Config.progMax then (s, .programTooLarge bytes.length) else (s.loadProgram bytes, .ok)

/-- One command (R186). -/
def State.command (s : State) : Command → State × Response
  | .reset => (s.resetCommand, .ok)
  | .load bytes => s.loadCommand bytes
  | .step rnd => s.stepCommand rnd
  | .tick => (s.tick, match s.err with | some _ => .ignored | none => .ok)
  | .keyWrite k down => (s.keyWrite k down, .ok)

/-- The state after a list of commands, in order of issue (20_memory.md R60). -/
def State.runCommands (s : State) : List Command → State
  | [] => s
  | c :: cs => State.runCommands (s.command c).1 cs

end Sys2Proof.Machine
end

