-- ==== Sys2Proof/Safety.lean ====
section
/-! DEFINITION. What counts as a safe state and a safe run of CORE, and the relations that the frames of the statements are
written with. -/

namespace Sys2Proof.Machine

/-! ## The states CORE reaches -/

/-- What an ERR record may hold in the state it stands in (spec 60_exceptions.md R172): the PC is still the failing instruction's
(R174), and `info` is in the range R172 gives it. -/
def ErrRecord.Legal (r : ErrRecord) (s : State) : Prop :=
  r.pc = s.pc ∧
  match r.cause with
  | .illegalOpcode w => decodeWord w = .error (.illegalOpcode w)
  | .stackOverflow sp => sp = s.sp ∧ sp = 16
  | .stackUnderflow sp => sp = s.sp ∧ sp = 0
  | .memoryOutOfBounds a => 0x1000 ≤ a ∧ a ≤ 0xFFFF
  | .programTooLarge _ => False

/-- The invariant of CORE: MEM in its canonical form, SP 0 to 16 (10_state.md R26), no return address above 0x1000 (41_control_flow.md
R101, R102), PC at most 0x10FE (10_state.md R25), and an ERR record that belongs to this state. -/
structure State.Inv (s : State) : Prop where
  mem : s.mem.wf
  sp : s.sp.toNat ≤ 16
  stack : ∀ k : RegNum, s.stack[k.val].toNat ≤ 0x1000
  pc : s.pc.toNat ≤ 0x10FE
  err : ∀ r, s.err = some r → r.Legal s

/-- "only `RESET` leaves this condition" (60_exceptions.md R175): a state with ERR clear is still running. -/
def State.running (s : State) : Bool := s.err.isNone

/-- The end of a program: "PC points at a `JP` to itself" (41_control_flow.md R109, D31). -/
def State.atEnd (s : State) : Prop := ∃ nnn : Addr, s.nextInstr = some (.jp nnn) ∧ addrOperand nnn = s.pc

/-- A run of `n` steps that meets no error. -/
def State.safeRun : Nat → State → Prop
  | 0, s => s.running
  | n + 1, s => s.running ∧ ∃ t, step s = .next t ∧ State.safeRun n t

/-! ## Frames -/

/-- Every general register outside `ds` is unchanged. -/
def SameRegsExcept (ds : List RegNum) (s t : State) : Prop := ∀ r : RegNum, r ∉ ds → t.getV r = s.getV r

/-- Every byte of memory reads as before. -/
def SameMemory (s t : State) : Prop := ∀ a : Nat, t.mem.get a = s.mem.get a

/-- Every byte of memory outside the `n` bytes from `base` reads as before. -/
def SameMemoryOutside (base n : Nat) (s t : State) : Prop :=
  ∀ a : Nat, ¬ (base ≤ a ∧ a < base + n) → t.mem.get a = s.mem.get a

/-- Every pixel is as before. -/
def SameDisplay (s t : State) : Prop := ∀ y x : Nat, t.pixel y x = s.pixel y x

/-- SP and every stack entry are as before. -/
def SameStack (s t : State) : Prop := t.sp = s.sp ∧ ∀ k : RegNum, t.stack[k.val] = s.stack[k.val]

/-- Both timers are as before. -/
def SameTimers (s t : State) : Prop := t.dt = s.dt ∧ t.st = s.st

/-- The keypad latch is as before. -/
def SameKeys (s t : State) : Prop := ∀ k : RegNum, keyDown t k = keyDown s k

/-- No random byte was used. -/
def SameRandom (s t : State) : Prop := t.rndIn = s.rndIn ∧ t.rndUsed = s.rndUsed

/-- All that an instruction without memory, display, stack, timer or random effect leaves alone, I and V apart. -/
def SameElsewhere (s t : State) : Prop :=
  SameMemory s t ∧ SameDisplay s t ∧ SameStack s t ∧ SameTimers s t ∧ SameKeys s t ∧ SameRandom s t ∧ t.err = s.err

/-! ## The effects that the rules of one shape share -/

/-- V[x] receives `b`, PC moves to the next instruction, nothing else changes. -/
def RegisterEffect (x : RegNum) (b : Byte) (s t : State) : Prop :=
  t.getV x = b ∧ SameRegsExcept [x] s t ∧ t.idx = s.idx ∧ t.pc = s.pc + 2 ∧ SameElsewhere s t

/-- VF ends as `flag`, V[x] as `b` unless `x` is VF itself (42_alu.md R132), PC moves to the next instruction, nothing else
changes. -/
def FlagEffect (x : RegNum) (b flag : Byte) (s t : State) : Prop :=
  t.getV vf = flag ∧ (x ≠ vf → t.getV x = b) ∧ SameRegsExcept [x, vf] s t ∧ t.idx = s.idx ∧ t.pc = s.pc + 2 ∧ SameElsewhere s t

/-- PC receives `a`, nothing else changes. -/
def PcEffect (a : Word) (s t : State) : Prop :=
  t.pc = a ∧ SameRegsExcept [] s t ∧ t.idx = s.idx ∧ SameElsewhere s t

/-- I receives `a`, PC moves to the next instruction, nothing else changes. -/
def IndexEffect (a : Word) (s t : State) : Prop :=
  t.idx = a ∧ SameRegsExcept [] s t ∧ t.pc = s.pc + 2 ∧ SameElsewhere s t

/-- PC moves to the next instruction; no register, no byte of memory, no pixel, no stack entry, no timer, no key changes. -/
def OnlyPcAdvances (s t : State) : Prop :=
  t.pc = s.pc + 2 ∧ SameRegsExcept [] s t ∧ t.idx = s.idx ∧ SameElsewhere s t

/-! ## Tables of the spec that statements over all instructions use -/

/-- 10_state.md R25: how each instruction that ends without an error leaves PC. -/
def pcAfter (i : Instr) (s : State) : Word :=
  match i with
  | .jp nnn | .call nnn => nnn.setWidth 16
  | .ret => s.stack.getD (s.sp.toNat - 1) 0
  | .jpV0 nnn => nnn.setWidth 16 + (s.getV 0).setWidth 16
  | .seVxNn x nn => if s.getV x = nn then s.pc + 4 else s.pc + 2
  | .sneVxNn x nn => if s.getV x ≠ nn then s.pc + 4 else s.pc + 2
  | .seVxVy x y _ => if s.getV x = s.getV y then s.pc + 4 else s.pc + 2
  | .sneVxVy x y _ => if s.getV x ≠ s.getV y then s.pc + 4 else s.pc + 2
  | .skp x => if keyDown s (lowNibble (s.getV x)) then s.pc + 4 else s.pc + 2
  | .sknp x => if keyDown s (lowNibble (s.getV x)) then s.pc + 2 else s.pc + 4
  | .ldVxK _ => if ∀ k : RegNum, keyDown s k = false then s.pc else s.pc + 2
  | .cls | .ldVxNn _ _ | .addVxNn _ _ | .ldVxVy _ _ | .orVxVy _ _ | .andVxVy _ _ | .xorVxVy _ _ | .addVxVy _ _ | .subVxVy _ _
  | .shrVx _ _ | .subnVxVy _ _ | .shlVx _ _ | .ldI _ | .rnd _ _ | .drw _ _ _ | .ldVxDt _ | .ldDtVx _ | .ldStVx _ | .addIVx _
  | .ldFVx _ | .ldBVx _ | .storeVx _ | .loadVx _ => s.pc + 2

/-- 60_exceptions.md R171, R172: the error an instruction raises at execute, with its `info`. -/
def raisedAtExecute (i : Instr) (s : State) : Option Cause :=
  match i with
  | .call _ => if s.sp = 16 then some (.stackOverflow 16) else none
  | .ret => if s.sp = 0 then some (.stackUnderflow 0) else none
  | .drw _ _ n =>
    if n > 0 ∧ s.idx.toNat + n - 1 > 0xFFF then some (.memoryOutOfBounds (max s.idx.toNat 0x1000)) else none
  | .ldBVx _ => if s.idx.toNat + 2 > 0xFFF then some (.memoryOutOfBounds (max s.idx.toNat 0x1000)) else none
  | .storeVx x | .loadVx x =>
    if s.idx.toNat + x.val > 0xFFF then some (.memoryOutOfBounds (max s.idx.toNat 0x1000)) else none
  | .cls | .jp _ | .seVxNn _ _ | .sneVxNn _ _ | .seVxVy _ _ _ | .ldVxNn _ _ | .addVxNn _ _ | .ldVxVy _ _ | .orVxVy _ _
  | .andVxVy _ _ | .xorVxVy _ _ | .addVxVy _ _ | .subVxVy _ _ | .shrVx _ _ | .subnVxVy _ _ | .shlVx _ _ | .sneVxVy _ _ _
  | .ldI _ | .jpV0 _ | .rnd _ _ | .skp _ | .sknp _ | .ldVxDt _ | .ldVxK _ | .ldDtVx _ | .ldStVx _ | .addIVx _ | .ldFVx _ => none

/-- 20_memory.md R53: the byte addresses an instruction accesses as data, as exact integers (R57). -/
def dataAddresses (i : Instr) (s : State) : List Nat :=
  match i with
  | .drw _ _ n => (List.range n).map (s.idx.toNat + ·)
  | .ldBVx _ => [s.idx.toNat, s.idx.toNat + 1, s.idx.toNat + 2]
  | .storeVx x | .loadVx x => (List.range (x.val + 1)).map (s.idx.toNat + ·)
  | .cls | .ret | .jp _ | .call _ | .seVxNn _ _ | .sneVxNn _ _ | .seVxVy _ _ _ | .ldVxNn _ _ | .addVxNn _ _ | .ldVxVy _ _
  | .orVxVy _ _ | .andVxVy _ _ | .xorVxVy _ _ | .addVxVy _ _ | .subVxVy _ _ | .shrVx _ _ | .subnVxVy _ _ | .shlVx _ _
  | .sneVxVy _ _ _ | .ldI _ | .jpV0 _ | .rnd _ _ | .skp _ | .sknp _ | .ldVxDt _ | .ldVxK _ | .ldDtVx _ | .ldStVx _ | .addIVx _
  | .ldFVx _ => []

/-- The general registers an instruction names as its destination, and VF where it writes VF as a flag (10_state.md R39). -/
def destinations (i : Instr) : List RegNum :=
  match i with
  | .ldVxNn x _ | .addVxNn x _ | .ldVxVy x _ | .orVxVy x _ | .andVxVy x _ | .xorVxVy x _ | .rnd x _ | .ldVxDt x | .ldVxK x => [x]
  | .addVxVy x _ | .subVxVy x _ | .shrVx x _ | .subnVxVy x _ | .shlVx x _ => [x, vf]
  | .drw _ _ _ => [vf]
  | .loadVx x => (List.finRange 16).filter fun r => decide (r ≤ x)
  | .cls | .ret | .jp _ | .call _ | .seVxNn _ _ | .sneVxNn _ _ | .seVxVy _ _ _ | .sneVxVy _ _ _ | .ldI _ | .jpV0 _ | .skp _
  | .sknp _ | .ldDtVx _ | .ldStVx _ | .addIVx _ | .ldFVx _ | .ldBVx _ | .storeVx _ => []

/-- 30_encoding.md R78: "The illegal words are exactly ...". -/
def listedIllegal (w : Word) : Bool :=
  (w.toNat < 0x1000 && w.toNat != 0x00E0 && w.toNat != 0x00EE) ||
  (w.toNat / 0x1000 == 0x8 && [0x8, 0x9, 0xA, 0xB, 0xC, 0xD, 0xF].contains (w.toNat % 0x10)) ||
  (w.toNat / 0x1000 == 0xE && !([0x9E, 0xA1].contains (w.toNat % 0x100))) ||
  (w.toNat / 0x1000 == 0xF && !([0x07, 0x0A, 0x15, 0x18, 0x1E, 0x29, 0x33, 0x55, 0x65].contains (w.toNat % 0x100)))

/-- 44_display.md R151, R152: the bit of the sprite of `n` rows at I that falls on the pixel at row `py`, column `px`. -/
def spriteBitAt (s : State) (x y : RegNum) (n py px : Nat) : Bool :=
  let x0 := (s.getV x).toNat % 64
  let y0 := (s.getV y).toNat % 32
  decide (y0 ≤ py ∧ py < y0 + n ∧ x0 ≤ px ∧ px < x0 + 8) && (s.mem.get (s.idx.toNat + (py - y0))).getLsbD (7 - (px - x0))

end Sys2Proof.Machine
end

