-- ==== Sys2Proof/Certificates/Slice0/Obligations.lean ====
section
/-! DEFINITION. The statements for the provers, each formalising rules of the spec (OBLIGATIONS.json says which). -/

open Sys2Proof Sys2Proof.Machine

/-! ## Encoding -/

/-- 30_encoding.md R70 to R72, R76: the decoder reads every instruction back from its word and from its bytes. -/
def Obligations.DecodeOfEncodeIsTheInstruction : Prop :=
  ∀ i : Instr, i.wellFormed = true →
    decodeWord (encode i) = .ok i ∧ ∀ rest : List Byte, decodeBytes (encodeBytes i ++ rest) = .ok (i, rest)

/-- 30_encoding.md R70 to R76: the encoder gives every legal word back, so that an instruction has exactly one word. -/
def Obligations.EncodeOfDecodeIsTheWord : Prop :=
  ∀ (w : Word) (i : Instr), decodeWord w = .ok i → i.wellFormed = true ∧ encode i = w

/-- 30_encoding.md R76: 34 rows; a word decodes to a row's instruction exactly when it matches the row; no word matches two. -/
def Obligations.DecodeFollowsTheOpcodeTable : Prop :=
  opcodeTable.length = 34 ∧
  (∀ w : Word, ∀ r ∈ opcodeTable, r.matchesWord w = true ↔ ∃ i, decodeWord w = .ok i ∧ i.mnemonic = r.mnemonic) ∧
  (∀ w : Word, ∀ r ∈ opcodeTable, ∀ q ∈ opcodeTable, r.matchesWord w = true → q.matchesWord w = true → r = q)

/-- 30_encoding.md R78: the illegal words are exactly the listed ones, and a step on one raises `IllegalOpcode` with the word. -/
def Obligations.IllegalWordsAreExactlyTheListed : Prop :=
  (∀ w : Word, listedIllegal w = true ↔ decodeWord w = .error (.illegalOpcode w)) ∧
  (∀ w : Word, listedIllegal w = false ↔ ∃ i, decodeWord w = .ok i) ∧
  listedIllegal 0x0000 = true ∧
  ∀ (s : State) (w : Word), s.err = none → s.fetch = .ok w → listedIllegal w = true →
    step s = .next { s with err := some ⟨.illegalOpcode w, s.pc⟩ }

/-- 30_encoding.md R75: the low nibble of `5XY_` and `9XY_` and the `Y` field of the shifts are legal at every value and change
nothing. -/
def Obligations.UnexaminedFieldsChangeNothing : Prop :=
  ∀ (x y y' : RegNum) (n : Nibble) (s : State),
    (decodeWord (formatXY 0x5 x y n) = .ok (.seVxVy x y n) ∧ exec (.seVxVy x y n) s = exec (.seVxVy x y 0) s) ∧
    (decodeWord (formatXY 0x9 x y n) = .ok (.sneVxVy x y n) ∧ exec (.sneVxVy x y n) s = exec (.sneVxVy x y 0) s) ∧
    (decodeWord (formatXY 0x8 x y 0x6) = .ok (.shrVx x y) ∧ exec (.shrVx x y) s = exec (.shrVx x y') s) ∧
    (decodeWord (formatXY 0x8 x y 0xE) = .ok (.shlVx x y) ∧ exec (.shlVx x y) s = exec (.shlVx x y') s)

/-- 30_encoding.md R71, R76: at least one word of each of the 16 groups (one value of `OP`, 00_scope.md R14), written out from the table,
decodes to its instruction; and two illegal words are refused. -/
def Obligations.SampleWordsDecode : Prop :=
  decodeWord 0x00E0 = .ok .cls ∧ decodeWord 0x00EE = .ok .ret ∧ decodeWord 0x1234 = .ok (.jp 0x234) ∧
  decodeWord 0x220A = .ok (.call 0x20A) ∧ decodeWord 0x3100 = .ok (.seVxNn 1 0x00) ∧ decodeWord 0x4211 = .ok (.sneVxNn 2 0x11) ∧
  decodeWord 0x5347 = .ok (.seVxVy 3 4 7) ∧ decodeWord 0x6A2C = .ok (.ldVxNn 0xA 0x2C) ∧ decodeWord 0x71FF = .ok (.addVxNn 1 0xFF) ∧
  decodeWord 0x8125 = .ok (.subVxVy 1 2) ∧ decodeWord 0x812E = .ok (.shlVx 1 2) ∧ decodeWord 0x9340 = .ok (.sneVxVy 3 4 0) ∧
  decodeWord 0xA300 = .ok (.ldI 0x300) ∧ decodeWord 0xB300 = .ok (.jpV0 0x300) ∧
  decodeWord 0xC30F = .ok (.rnd 3 0x0F) ∧ decodeWord 0xD125 = .ok (.drw 1 2 5) ∧ decodeWord 0xE4A1 = .ok (.sknp 4) ∧
  decodeWord 0xF30A = .ok (.ldVxK 3) ∧ decodeWord 0xF265 = .ok (.loadVx 2) ∧
  decodeWord 0x8128 = .error (.illegalOpcode 0x8128) ∧ decodeWord 0x0123 = .error (.illegalOpcode 0x0123)

/-! ## The step -/

/-- 40_step_cycle.md R91 to R94: with ERR clear, a step whose two bytes at PC decode to an instruction is that instruction's meaning
at that state. A meaning is applied to the state whose PC is the instruction's own address and moves PC itself (log entry 5), so
the step adds nothing around it. -/
def Obligations.StepRunsTheDecodedInstruction : Prop :=
  ∀ (s : State) (i : Instr), s.err = none → s.pc.toNat ≤ 0xFFE →
    decodeWord (wordOfBytes (s.mem.get s.pc.toNat) (s.mem.get (s.pc.toNat + 1))) = .ok i → step s = exec i s

/-- 40_step_cycle.md R91: the word fetched is the two bytes at PC0 and PC0 + 1, the first in bits 15:8; a fetch above 0xFFE ends the
step with `MemoryOutOfBounds`. PC0 need not be even, and the fetch reads MEM as it is at that moment. -/
def Obligations.FetchIsBigEndianAndRangeChecked : Prop :=
  ∀ s : State, s.err = none →
    (s.pc.toNat ≤ 0xFFE → ∃ w : Word, s.fetch = .ok w ∧
      w.toNat = 256 * (s.mem.get s.pc.toNat).toNat + (s.mem.get (s.pc.toNat + 1)).toNat) ∧
    (s.pc.toNat = 0xFFF → step s = .next { s with err := some ⟨.memoryOutOfBounds 0x1000, s.pc⟩ }) ∧
    (s.pc.toNat > 0xFFF → step s = .next { s with err := some ⟨.memoryOutOfBounds s.pc.toNat, s.pc⟩ })

/-- 40_step_cycle.md R98: with ERR set, `STEP` changes nothing and its outcome is the recorded error again; no command but `RESET`
clears ERR. -/
def Obligations.LatchedErrorStopsEveryStep : Prop :=
  ∀ (s : State) (r : ErrRecord), s.err = some r →
    (∀ rnd : Byte, s.command (.step rnd) = (s, .error r)) ∧
    (∀ c : Command, c ≠ .reset → (s.command c).1.err = some r) ∧
    (s.command .reset).1.err = none

/-- The model's choice (log entry 3): `step` on a state with ERR set answers the fault `errLatched` with the record, and it answers that
fault on no other state. 60_exceptions.md R175 calls such a state "a fault state ... with no transition but `RESET`". -/
def Obligations.StepFaultsExactlyWhenAnErrorIsLatched : Prop :=
  ∀ (s : State) (r : ErrRecord), step s = .fault (.errLatched r) ↔ s.err = some r

/-- 40_step_cycle.md R97: a step that ends in an error changes ERR alone, the record holds PC0, and the outcome of the `STEP` is that
record. -/
def Obligations.FailingStepChangesOnlyErr : Prop :=
  (∀ s t : State, step s = .next t → t.err ≠ none → ∃ r : ErrRecord, r.pc = s.pc ∧ t = { s with err := some r }) ∧
  (∀ (s t : State) (rnd : Byte) (r : ErrRecord), s.err = none → s.command (.step rnd) = (t, .error r) →
    r.pc = s.pc ∧ t = { s with err := some r })

/-- Which part of a step can raise what; the other 28 instructions raise nothing at execute; `TICK` and `KEYWRITE` raise nothing. The
spec marks this (60_exceptions.md R171) as its own inference from the exception clauses of the instruction rules. SP is one of the
values CORE reaches (log entry 4). -/
def Obligations.ErrorsRaisedByEachPart : Prop :=
  (∀ s : State, (∃ c, s.fetch = .error c) ↔ s.pc.toNat > 0xFFE) ∧
  (∀ (i : Instr) (s : State), s.sp.toNat ≤ 16 → s.err = none →
    ∃ t, exec i s = .next t ∧ t.err = (raisedAtExecute i s).map (fun c => ⟨c, s.pc⟩)) ∧
  (∀ (s : State) (k : RegNum) (b : Bool), (s.command .tick).1.err = s.err ∧ (s.command (.keyWrite k b)).1.err = s.err)

/-- 60_exceptions.md R172: what the record of an error holds, and that the outcome of the `STEP` is the same record. -/
def Obligations.ErrorRecordContents : Prop :=
  (∀ (s t : State) (r : ErrRecord), step s = .next t → t.err = some r →
    r.pc = s.pc ∧
    match r.cause with
    | .illegalOpcode w => s.fetch = .ok w ∧ decodeWord w = .error (.illegalOpcode w)
    | .memoryOutOfBounds a =>
      0x1000 ≤ a ∧ a ≤ 0xFFFF ∧
      (s.pc.toNat > 0xFFE ∧ a = max s.pc.toNat 0x1000 ∨ s.pc.toNat ≤ 0xFFE ∧ a = max s.idx.toNat 0x1000)
    | .stackOverflow sp => sp = 16 ∧ s.sp = sp
    | .stackUnderflow sp => sp = 0 ∧ s.sp = sp
    | .programTooLarge _ => False) ∧
  (∀ (s t : State) (rnd : Byte) (o : Response) (r : ErrRecord), s.command (.step rnd) = (t, o) → t.err = some r → o = .error r)

/-- After 10_state.md section 3: how each instruction leaves PC; one whose step ends in an error leaves it where it was. The last clause,
that an instruction fetched in a state of the kind CORE reaches leaves PC at 0x10FE at most, is an inference: the spec marks its
sentence, "From a `RESET` state PC never exceeds 0x10FE", as derived, and here it is said over the model's own invariant
`State.Inv`. -/
def Obligations.PcAfterEveryInstruction : Prop :=
  ∀ (i : Instr) (s t : State), s.err = none → exec i s = .next t →
    (t.err = none → t.pc = pcAfter i s) ∧ (t.err ≠ none → t.pc = s.pc) ∧
    (s.Inv → s.pc.toNat ≤ 0xFFE → t.pc.toNat ≤ 0x10FE)

/-- After 40_step_cycle.md section "The STEP operation": with ERR clear and SP a value CORE reaches (log entry 4), `step` has a next
state and `STEP` has one of the outcomes `OK`, `HALTED`, `ERROR`. -/
def Obligations.StepIsTotal : Prop :=
  ∀ s : State, s.err = none → s.sp.toNat ≤ 16 →
    (∃ t, step s = .next t) ∧
    ∀ rnd : Byte, ∃ t, s.command (.step rnd) = (t, .ok) ∨ s.command (.step rnd) = (t, .halted) ∨
      ∃ r, s.command (.step rnd) = (t, .error r)

/-- After 60_exceptions.md section 5: a `STEP` that does not execute `CXNN` does not depend on the byte on the random input. -/
def Obligations.RandomByteReachesOnlyRnd : Prop :=
  ∀ (s : State) (r r' : Byte), (∀ x nn, s.nextInstr ≠ some (.rnd x nn)) → s.command (.step r) = s.command (.step r')

/-! ## Frames over all instructions -/

/-- 10_state.md R20, R39: no instruction changes a general register that is not its destination or, for the flag writers, VF. -/
def Obligations.OnlyDestinationRegistersChange : Prop :=
  ∀ (i : Instr) (s t : State), exec i s = .next t → SameRegsExcept (destinations i) s t

/-- 20_memory.md R50, 10_state.md R31, R38: `FX33` and `FX55` are the only instructions that write MEM, `00E0` and `DXYN` the only
ones that write FB. -/
def Obligations.OnlyTheNamedInstructionsWriteMemoryAndDisplay : Prop :=
  ∀ (i : Instr) (s t : State), exec i s = .next t →
    ((∀ x, i ≠ .ldBVx x) → (∀ x, i ≠ .storeVx x) → SameMemory s t) ∧
    (i ≠ .cls → (∀ x y n, i ≠ .drw x y n) → SameDisplay s t)

/-- 10_state.md R23, R26, R27: only `ANNN`, `FX1E` and `FX29` write I; only `2NNN` and `00EE` change SP, and only `2NNN` STACK. -/
def Obligations.OnlyTheNamedInstructionsWriteIndexAndStack : Prop :=
  ∀ (i : Instr) (s t : State), exec i s = .next t →
    ((∀ a, i ≠ .ldI a) → (∀ x, i ≠ .addIVx x) → (∀ x, i ≠ .ldFVx x) → t.idx = s.idx) ∧
    ((∀ a, i ≠ .call a) → i ≠ .ret → t.sp = s.sp) ∧
    ((∀ a, i ≠ .call a) → ∀ k : RegNum, t.stack[k.val] = s.stack[k.val])

/-- 10_state.md R28 to R30, 60_exceptions.md R185: only `FX15` writes DT and only `FX18` ST, no instruction writes K, and only `CXNN`
uses a random byte. -/
def Obligations.OnlyTheNamedInstructionsTouchTimersKeysRandom : Prop :=
  ∀ (i : Instr) (s t : State), exec i s = .next t →
    ((∀ x, i ≠ .ldDtVx x) → t.dt = s.dt) ∧ ((∀ x, i ≠ .ldStVx x) → t.st = s.st) ∧ SameKeys s t ∧
    ((∀ x nn, i ≠ .rnd x nn) → SameRandom s t)

/-- 10_state.md R39: the instructions that write VF as a flag and the value each writes, also when X is VF; every other instruction
leaves VF alone unless it names it as its destination; VF is 0 after reset. -/
def Obligations.FlagWritersAndTheirFlags : Prop :=
  State.reset.getV vf = 0 ∧
  ∀ (i : Instr) (s t : State), s.err = none → exec i s = .next t → t.err = none →
    match i with
    | .addVxVy x y => t.getV vf = if (s.getV x).toNat + (s.getV y).toNat > 255 then 1 else 0
    | .subVxVy x y => t.getV vf = if (s.getV x).toNat ≥ (s.getV y).toNat then 1 else 0
    | .subnVxVy x y => t.getV vf = if (s.getV y).toNat ≥ (s.getV x).toNat then 1 else 0
    | .shrVx x _ => (t.getV vf).toNat = (s.getV x).toNat % 2
    | .shlVx x _ => (t.getV vf).toNat = (s.getV x).toNat / 128
    | .drw _ _ _ =>
      ((∃ y x, s.pixel y x = true ∧ t.pixel y x = false) → t.getV vf = 1) ∧
      ((∀ y x, s.pixel y x = true → t.pixel y x = true) → t.getV vf = 0)
    | j => vf ∉ destinations j → t.getV vf = s.getV vf

/-! ## Control flow -/

/-- 41_control_flow.md R100, R103: `JP NNN` and `JP V0, NNN`; neither is checked, wrapped or masked, and nothing but PC changes. -/
def Obligations.JumpsReplacePc : Prop :=
  ∀ (nnn : Addr) (s : State),
    (∃ t, exec (.jp nnn) s = .next t ∧ PcEffect t.pc s t ∧ t.pc.toNat = nnn.toNat) ∧
    (∃ t, exec (.jpV0 nnn) s = .next t ∧ PcEffect t.pc s t ∧ t.pc.toNat = nnn.toNat + (s.getV 0).toNat)

/-- 41_control_flow.md R101: `CALL NNN` stores `PC0 + 2` at `STACK[SP]`, adds 1 to SP and jumps; with 16 return addresses on the stack
it raises `StackOverflow(SP)` and pushes nothing. -/
def Obligations.CallPushesTheReturnAddress : Prop :=
  ∀ (nnn : Addr) (s : State),
    (s.sp.toNat < 16 → ∃ t, exec (.call nnn) s = .next t ∧
      t.pc.toNat = nnn.toNat ∧ t.sp = s.sp + 1 ∧
      (∀ k : RegNum, t.stack[k.val] = if k.val = s.sp.toNat then s.pc + 2 else s.stack[k.val]) ∧
      SameRegsExcept [] s t ∧ t.idx = s.idx ∧ SameMemory s t ∧ SameDisplay s t ∧ SameTimers s t ∧ SameKeys s t ∧
      SameRandom s t ∧ t.err = s.err) ∧
    (s.sp = 16 → exec (.call nnn) s = .next { s with err := some ⟨.stackOverflow 16, s.pc⟩ })

/-- 41_control_flow.md R102: `RET` subtracts 1 from SP and jumps to `STACK[SP]`, which keeps its value; with an empty stack it raises
`StackUnderflow(SP)`. -/
def Obligations.ReturnPopsTheReturnAddress : Prop :=
  ∀ s : State,
    (∀ h : s.sp.toNat - 1 < 16, s.sp ≠ 0 → ∃ t, exec .ret s = .next t ∧
      t.pc = s.stack[s.sp.toNat - 1] ∧ t.sp.toNat + 1 = s.sp.toNat ∧ (∀ k : RegNum, t.stack[k.val] = s.stack[k.val]) ∧
      SameRegsExcept [] s t ∧ t.idx = s.idx ∧ SameMemory s t ∧ SameDisplay s t ∧ SameTimers s t ∧ SameKeys s t ∧
      SameRandom s t ∧ t.err = s.err) ∧
    (s.sp = 0 → exec .ret s = .next { s with err := some ⟨.stackUnderflow 0, s.pc⟩ })

/-- 41_control_flow.md R101, R102, R109: a return that finds the stack as a call left it comes back to the instruction after the call,
with the stack as deep as before the call. -/
def Obligations.ReturnComesBackAfterCall : Prop :=
  ∀ (nnn : Addr) (s t u : State), s.sp.toNat < 16 → exec (.call nnn) s = .next t → u.sp = t.sp → u.stack = t.stack →
    ∃ w, exec .ret u = .next w ∧ w.pc = s.pc + 2 ∧ w.sp = s.sp

/-- 41_control_flow.md R104 to R107: the four compares; the condition decides whether PC is `PC0 + 4` or `PC0 + 2`, and nothing but PC
changes. -/
def Obligations.ComparesSkipOneInstruction : Prop :=
  ∀ (x y : RegNum) (nn : Byte) (n : Nibble) (s : State),
    (∃ t, exec (.seVxNn x nn) s = .next t ∧ PcEffect (if s.getV x = nn then s.pc + 4 else s.pc + 2) s t) ∧
    (∃ t, exec (.sneVxNn x nn) s = .next t ∧ PcEffect (if s.getV x = nn then s.pc + 2 else s.pc + 4) s t) ∧
    (∃ t, exec (.seVxVy x y n) s = .next t ∧ PcEffect (if s.getV x = s.getV y then s.pc + 4 else s.pc + 2) s t) ∧
    (∃ t, exec (.sneVxVy x y n) s = .next t ∧ PcEffect (if s.getV x = s.getV y then s.pc + 2 else s.pc + 4) s t)

/-- 45_keypad_timers_random.md R160, R161: the key tested is number `V[X][3:0]`; K is not changed. -/
def Obligations.KeySkipsTestTheLowNibble : Prop :=
  ∀ (x k : RegNum) (s : State), k.val = (s.getV x).toNat % 16 →
    (∃ t, exec (.skp x) s = .next t ∧ PcEffect (if s.keys[k.val] = true then s.pc + 4 else s.pc + 2) s t) ∧
    (∃ t, exec (.sknp x) s = .next t ∧ PcEffect (if s.keys[k.val] = false then s.pc + 4 else s.pc + 2) s t)

/-- After 41_control_flow.md section on the end of a program (R109): at a jump to its own address a step leaves the state as it is. -/
def Obligations.JumpToItselfIsAFixedPoint : Prop :=
  ∀ s : State, s.err = none → s.atEnd → step s = .next s

/-! ## Arithmetic, logic, shifts -/

/-- 42_alu.md R120, R121: load immediate, and add immediate modulo 256 with VF not written as a flag. -/
def Obligations.ImmediateLoadAndAdd : Prop :=
  ∀ (x : RegNum) (nn : Byte) (s : State),
    (∃ t, exec (.ldVxNn x nn) s = .next t ∧ RegisterEffect x nn s t) ∧
    (∃ t, exec (.addVxNn x nn) s = .next t ∧
      RegisterEffect x (BitVec.ofNat 8 (((s.getV x).toNat + nn.toNat) % 256)) s t)

/-- 42_alu.md R122 to R125: the register move and the three logic operations, bit by bit; VF is not written. -/
def Obligations.MoveAndLogicOperations : Prop :=
  ∀ (x y : RegNum) (s : State),
    (∃ t, exec (.ldVxVy x y) s = .next t ∧ RegisterEffect x (s.getV y) s t) ∧
    (∃ t, exec (.orVxVy x y) s = .next t ∧ RegisterEffect x (t.getV x) s t ∧
      ∀ k < 8, (t.getV x).getLsbD k = ((s.getV x).getLsbD k || (s.getV y).getLsbD k)) ∧
    (∃ t, exec (.andVxVy x y) s = .next t ∧ RegisterEffect x (t.getV x) s t ∧
      ∀ k < 8, (t.getV x).getLsbD k = ((s.getV x).getLsbD k && (s.getV y).getLsbD k)) ∧
    (∃ t, exec (.xorVxVy x y) s = .next t ∧ RegisterEffect x (t.getV x) s t ∧
      ∀ k < 8, (t.getV x).getLsbD k = ((s.getV x).getLsbD k ^^ (s.getV y).getLsbD k))

/-- 42_alu.md R126, R127, R129: add, subtract and reversed subtract modulo 256, with VF the carry or the no-borrow, also when X or Y
is VF. -/
def Obligations.AddAndSubtractWithFlag : Prop :=
  ∀ (x y : RegNum) (s : State),
    (∃ t, exec (.addVxVy x y) s = .next t ∧
      FlagEffect x (BitVec.ofNat 8 (((s.getV x).toNat + (s.getV y).toNat) % 256))
        (if (s.getV x).toNat + (s.getV y).toNat > 255 then 1 else 0) s t) ∧
    (∃ t, exec (.subVxVy x y) s = .next t ∧
      FlagEffect x (BitVec.ofInt 8 (((s.getV x).toNat - (s.getV y).toNat : Int) % 256))
        (if (s.getV x).toNat ≥ (s.getV y).toNat then 1 else 0) s t) ∧
    (∃ t, exec (.subnVxVy x y) s = .next t ∧
      FlagEffect x (BitVec.ofInt 8 (((s.getV y).toNat - (s.getV x).toNat : Int) % 256))
        (if (s.getV y).toNat ≥ (s.getV x).toNat then 1 else 0) s t)

/-- 42_alu.md R128, R130: the shifts move V[X] by one bit, whatever Y is, with VF the bit shifted out, also when X is VF. -/
def Obligations.ShiftsByOneWithFlag : Prop :=
  ∀ (x y : RegNum) (s : State),
    (∃ t, exec (.shrVx x y) s = .next t ∧
      FlagEffect x (BitVec.ofNat 8 ((s.getV x).toNat / 2)) (BitVec.ofNat 8 ((s.getV x).toNat % 2)) s t) ∧
    (∃ t, exec (.shlVx x y) s = .next t ∧
      FlagEffect x (BitVec.ofNat 8 ((s.getV x).toNat * 2 % 256)) (BitVec.ofNat 8 ((s.getV x).toNat / 128)) s t)

/-- 42_alu.md R131: the flag computations as the integer laws say them, and no-borrow as "NOT d[8]" of the 9-bit difference. -/
def Obligations.CarryAndBorrowLaws : Prop :=
  ∀ a b : Byte,
    (carryFlag a b = 1 ↔ a.toNat + b.toNat > 255) ∧ (sumByte a b).toNat = (a.toNat + b.toNat) % 256 ∧
    (noBorrowFlag a b = 1 ↔ a.toNat ≥ b.toNat) ∧
    (noBorrowFlag a b = 1 ↔ (a.setWidth 9 - b.setWidth 9).getLsbD 8 = false) ∧
    (carryFlag a b = 0 ∨ carryFlag a b = 1) ∧ (noBorrowFlag a b = 0 ∨ noBorrowFlag a b = 1)

/-! ## Index register and memory -/

/-- 43_index_memory.md R140 to R142: load I, add to I modulo 65536, point I at a glyph; VF is not written. -/
def Obligations.IndexRegisterLoads : Prop :=
  ∀ (nnn : Addr) (x : RegNum) (s : State),
    (∃ t, exec (.ldI nnn) s = .next t ∧ IndexEffect (BitVec.ofNat 16 nnn.toNat) s t) ∧
    (∃ t, exec (.addIVx x) s = .next t ∧
      IndexEffect (BitVec.ofNat 16 ((s.idx.toNat + (s.getV x).toNat) % 65536)) s t) ∧
    (∃ t, exec (.ldFVx x) s = .next t ∧ IndexEffect (BitVec.ofNat 16 (0x050 + 5 * ((s.getV x).toNat % 16))) s t)

/-- 43_index_memory.md R143: hundreds, tens and ones of V[X] at I, I+1, I+2, nothing else changed; no byte is written when one of the
three addresses is above 0xFFF. -/
def Obligations.BcdStoreWritesThreeDigits : Prop :=
  ∀ (x : RegNum) (s : State), s.mem.wf →
    (s.idx.toNat + 2 ≤ 0xFFF → ∃ t, exec (.ldBVx x) s = .next t ∧
      (t.mem.get s.idx.toNat).toNat = (s.getV x).toNat / 100 ∧
      (t.mem.get (s.idx.toNat + 1)).toNat = (s.getV x).toNat / 10 % 10 ∧
      (t.mem.get (s.idx.toNat + 2)).toNat = (s.getV x).toNat % 10 ∧
      SameMemoryOutside s.idx.toNat 3 s t ∧ t.pc = s.pc + 2 ∧ t.idx = s.idx ∧ SameRegsExcept [] s t ∧ SameDisplay s t ∧
      SameStack s t ∧ SameTimers s t ∧ SameKeys s t ∧ SameRandom s t ∧ t.err = s.err) ∧
    (s.idx.toNat + 2 > 0xFFF →
      exec (.ldBVx x) s = .next { s with err := some ⟨.memoryOutOfBounds (max s.idx.toNat 0x1000), s.pc⟩ })

/-- 43_index_memory.md R144: V0 to V[X] stored at I, I+1, ..., I+X, nothing else changed, I included; no byte is written when I + X is
above 0xFFF. -/
def Obligations.BlockStoreWritesRegisters : Prop :=
  ∀ (x : RegNum) (s : State), s.mem.wf →
    (s.idx.toNat + x.val ≤ 0xFFF → ∃ t, exec (.storeVx x) s = .next t ∧
      (∀ k : RegNum, k ≤ x → t.mem.get (s.idx.toNat + k.val) = s.getV k) ∧
      SameMemoryOutside s.idx.toNat (x.val + 1) s t ∧ t.pc = s.pc + 2 ∧ t.idx = s.idx ∧ SameRegsExcept [] s t ∧
      SameDisplay s t ∧ SameStack s t ∧ SameTimers s t ∧ SameKeys s t ∧ SameRandom s t ∧ t.err = s.err) ∧
    (s.idx.toNat + x.val > 0xFFF →
      exec (.storeVx x) s = .next { s with err := some ⟨.memoryOutOfBounds (max s.idx.toNat 0x1000), s.pc⟩ })

/-- 43_index_memory.md R145: V0 to V[X] loaded from I, I+1, ..., I+X, the registers above V[X] and everything else as before, I
included; no register is written when I + X is above 0xFFF. -/
def Obligations.BlockLoadReadsRegisters : Prop :=
  ∀ (x : RegNum) (s : State),
    (s.idx.toNat + x.val ≤ 0xFFF → ∃ t, exec (.loadVx x) s = .next t ∧
      (∀ k : RegNum, t.getV k = if k ≤ x then s.mem.get (s.idx.toNat + k.val) else s.getV k) ∧
      t.pc = s.pc + 2 ∧ t.idx = s.idx ∧ SameElsewhere s t) ∧
    (s.idx.toNat + x.val > 0xFFF →
      exec (.loadVx x) s = .next { s with err := some ⟨.memoryOutOfBounds (max s.idx.toNat 0x1000), s.pc⟩ })

/-- 43_index_memory.md R144, R145: a block load from where a block store put its bytes gives the stored registers back. -/
def Obligations.BlockLoadAfterStoreRestores : Prop :=
  ∀ (x : RegNum) (s t u : State), s.mem.wf → s.err = none → exec (.storeVx x) s = .next t → t.err = none →
    u.mem = t.mem → u.idx = s.idx → ∃ w, exec (.loadVx x) u = .next w ∧ ∀ k : RegNum, k ≤ x → w.getV k = s.getV k

/-- 20_memory.md R57: when an instruction is to access a byte above 0xFFF, or the fetch is, the step raises `MemoryOutOfBounds` with the
lowest such address and changes no other state. Addresses are exact numbers. -/
def Obligations.LowestBadAddressIsReported : Prop :=
  (∀ (i : Instr) (s : State), (∃ a ∈ dataAddresses i s, a > 0xFFF) →
    ∃ a ∈ dataAddresses i s, a > 0xFFF ∧ (∀ b ∈ dataAddresses i s, b > 0xFFF → a ≤ b) ∧
      exec i s = .next { s with err := some ⟨.memoryOutOfBounds a, s.pc⟩ }) ∧
  (∀ s : State, s.err = none → (∃ a ∈ [s.pc.toNat, s.pc.toNat + 1], a > 0xFFF) →
    ∃ a ∈ [s.pc.toNat, s.pc.toNat + 1], a > 0xFFF ∧ (∀ b ∈ [s.pc.toNat, s.pc.toNat + 1], b > 0xFFF → a ≤ b) ∧
      step s = .next { s with err := some ⟨.memoryOutOfBounds a, s.pc⟩ })

/-- Two bytes stored over the next instruction are the word the next step fetches (20_memory.md R62, which the spec marks as its own
inference). -/
def Obligations.StoredBytesAreFetchedNext : Prop :=
  ∀ (x : RegNum) (s t : State), s.mem.wf → s.err = none → s.idx = s.pc + 2 → s.pc.toNat ≤ 0xFFC → 1 ≤ x.val →
    exec (.storeVx x) s = .next t → t.err = none → t.fetch = .ok (wordOfBytes (s.getV 0) (s.getV 1))

/-- The canonical form of MEM (the model's own form, log entry 6): two memories in it that read alike at every address are the same
data. -/
def Obligations.MemoriesThatReadAlikeAreEqual : Prop :=
  ∀ m n : Memory, m.wf → n.wf → (∀ a < 0x1000, m.get a = n.get a) → m = n

/-! ## Display -/

/-- 44_display.md R150: every pixel is cleared; nothing else changes but PC. -/
def Obligations.ClearScreenClearsEveryPixel : Prop :=
  ∀ s : State, ∃ t, exec .cls s = .next t ∧ (∀ y x, t.pixel y x = false) ∧ t.pc = s.pc + 2 ∧ SameRegsExcept [] s t ∧
    t.idx = s.idx ∧ SameMemory s t ∧ SameStack s t ∧ SameTimers s t ∧ SameKeys s t ∧ SameRandom s t ∧ t.err = s.err

/-- 44_display.md R151, R152: each pixel on the screen is XORed with the sprite bit that falls on it, clipped bits fall nowhere; VF is
1 when a pixel went from set to unset and 0 when none did; with a sprite byte above 0xFFF, clipped rows included, the step raises
`MemoryOutOfBounds` and neither FB nor VF changes. -/
def Obligations.DrawXorsTheSprite : Prop :=
  ∀ (x y : RegNum) (n : Nat) (s : State),
    (n = 0 ∨ s.idx.toNat + n - 1 ≤ 0xFFF → ∃ t, exec (.drw x y n) s = .next t ∧
      (∀ py px, py < 32 → px < 64 → t.pixel py px = (s.pixel py px ^^ spriteBitAt s x y n py px)) ∧
      ((∃ py px, py < 32 ∧ px < 64 ∧ s.pixel py px = true ∧ spriteBitAt s x y n py px = true) → t.getV vf = 1) ∧
      ((∀ py px, py < 32 → px < 64 → s.pixel py px = true → spriteBitAt s x y n py px = false) → t.getV vf = 0) ∧
      SameRegsExcept [vf] s t ∧ t.pc = s.pc + 2 ∧ t.idx = s.idx ∧ SameMemory s t ∧ SameStack s t ∧ SameTimers s t ∧
      SameKeys s t ∧ SameRandom s t ∧ t.err = s.err) ∧
    (n > 0 → s.idx.toNat + n - 1 > 0xFFF →
      exec (.drw x y n) s = .next { s with err := some ⟨.memoryOutOfBounds (max s.idx.toNat 0x1000), s.pc⟩ })

/-- Drawing the same sprite at the same place a second time restores FB, whatever was on the screen (the last sentence of the eighth
point of 44_display.md R153, which the spec marks as its own inference). -/
def Obligations.SecondDrawRestoresTheScreen : Prop :=
  ∀ (x y : RegNum) (n : Nat) (s t u w : State), s.err = none → exec (.drw x y n) s = .next t → t.err = none →
    u.fb = t.fb → u.mem = s.mem → u.idx = s.idx → u.getV x = s.getV x → u.getV y = s.getV y → u.err = none →
    exec (.drw x y n) u = .next w → ∀ py px, w.pixel py px = s.pixel py px

/-! ## Keypad, timers, random -/

/-- 45_keypad_timers_random.md R162: with no key down the step stalls, outcome `HALTED`, the whole state as before; else the least key
that is down goes to V[X] and the step completes; K is not changed. -/
def Obligations.WaitForKeyStallsOrStoresTheLeastKey : Prop :=
  ∀ (x : RegNum) (s : State),
    ((∀ k : RegNum, s.keys[k.val] = false) →
      exec (.ldVxK x) s = .next s ∧
      ∀ rnd : Byte, s.err = none → s.nextInstr = some (.ldVxK x) → s.command (.step rnd) = (s, .halted)) ∧
    (∀ k : RegNum, s.keys[k.val] = true → (∀ j : RegNum, j < k → s.keys[j.val] = false) →
      (∃ t, exec (.ldVxK x) s = .next t ∧ RegisterEffect x (BitVec.ofNat 8 k.val) s t) ∧
      ∀ rnd : Byte, s.err = none → s.nextInstr = some (.ldVxK x) → (s.command (.step rnd)).2 = .ok)

/-- 45_keypad_timers_random.md R163 to R165, 60_exceptions.md R184: reading DT, writing DT, writing ST with the sound output. -/
def Obligations.TimerReadsAndWrites : Prop :=
  ∀ (x : RegNum) (s : State),
    (∃ t, exec (.ldVxDt x) s = .next t ∧ RegisterEffect x s.dt s t) ∧
    (∃ t, exec (.ldDtVx x) s = .next t ∧ t.dt = s.getV x ∧ t.st = s.st ∧ t.pc = s.pc + 2 ∧ SameRegsExcept [] s t ∧
      t.idx = s.idx ∧ SameMemory s t ∧ SameDisplay s t ∧ SameStack s t ∧ SameKeys s t ∧ SameRandom s t ∧ t.err = s.err) ∧
    (∃ t, exec (.ldStVx x) s = .next t ∧ t.st = s.getV x ∧ (t.sound = true ↔ s.getV x ≠ 0) ∧ t.dt = s.dt ∧ t.pc = s.pc + 2 ∧
      SameRegsExcept [] s t ∧ t.idx = s.idx ∧ SameMemory s t ∧ SameDisplay s t ∧ SameStack s t ∧ SameKeys s t ∧
      SameRandom s t ∧ t.err = s.err)

/-- After 45_keypad_timers_random.md section 3, in the model's form of the random source, which is the model's choice (log entry 2):
V[X] is `s.rand` AND NN, whichever byte `s.rand` is (the first byte of `rndIn`, or the free value `Config.rndByte` where `rndIn` is
empty); exactly one byte is used, counted by `rndUsed`, also when NN is 0; nothing else changes. -/
def Obligations.RandomByteIsMasked : Prop :=
  ∀ (x : RegNum) (nn : Byte) (s : State),
    (∃ t, exec (.rnd x nn) s = .next t ∧
      (∀ k < 8, (t.getV x).getLsbD k = (s.rand.getLsbD k && nn.getLsbD k)) ∧ t.rndUsed = s.rndUsed + 1 ∧ t.rndIn = s.rndIn.tail ∧
      SameRegsExcept [x] s t ∧ t.idx = s.idx ∧ t.pc = s.pc + 2 ∧ SameMemory s t ∧ SameDisplay s t ∧ SameStack s t ∧
      SameTimers s t ∧ SameKeys s t ∧ t.err = s.err) ∧
    (∀ (r : Byte) (rest : List Byte), s.rndIn = r :: rest →
      ∃ t, exec (.rnd x nn) s = .next t ∧ t.rndIn = rest ∧ ∀ k < 8, (t.getV x).getLsbD k = (r.getLsbD k && nn.getLsbD k))

/-- 45_keypad_timers_random.md R166: a `STEP` with the byte `r` on the random input that executes `CXNN` completes with V[X] = `r` AND NN,
bit by bit, for every `r` and NN; PC moves to the next instruction and no other state of CORE changes. The byte is the command's
own argument, one to a `STEP`. -/
def Obligations.StepMasksTheByteOnTheRandomInput : Prop :=
  ∀ (x : RegNum) (nn r : Byte) (s : State), s.err = none → s.nextInstr = some (.rnd x nn) →
    ∃ t, s.command (.step r) = (t, .ok) ∧
      (∀ k < 8, (t.getV x).getLsbD k = (r.getLsbD k && nn.getLsbD k)) ∧
      SameRegsExcept [x] s t ∧ t.idx = s.idx ∧ t.pc = s.pc + 2 ∧ SameMemory s t ∧ SameDisplay s t ∧ SameStack s t ∧
      SameTimers s t ∧ SameKeys s t ∧ t.err = none

/-! ## The host's commands -/

/-- 10_state.md R37, 70_reset_and_hazards.md R200: every element after `RESET`, whatever it held before; K is not touched. -/
def Obligations.ResetSetsEveryElement : Prop :=
  ∀ s : State, ∃ t, s.command .reset = (t, .ok) ∧
    (∀ r : RegNum, t.getV r = 0) ∧ t.idx = 0 ∧ t.pc = 0x200 ∧ t.sp = 0 ∧ (∀ k : RegNum, t.stack[k.val] = 0) ∧
    t.dt = 0 ∧ t.st = 0 ∧ t.sound = false ∧ (∀ y x, t.pixel y x = false) ∧
    (∀ a : Nat, a < 0x050 ∨ 0x0A0 ≤ a → t.mem.get a = 0) ∧
    (List.range 80).map (fun k => (t.mem.get (0x050 + k)).toNat) =
      [0xF0, 0x90, 0x90, 0x90, 0xF0, 0x20, 0x60, 0x20, 0x20, 0x70, 0xF0, 0x10, 0xF0, 0x80, 0xF0, 0xF0, 0x10, 0xF0, 0x10, 0xF0,
       0x90, 0x90, 0xF0, 0x10, 0x10, 0xF0, 0x80, 0xF0, 0x10, 0xF0, 0xF0, 0x80, 0xF0, 0x90, 0xF0, 0xF0, 0x10, 0x20, 0x40, 0x40,
       0xF0, 0x90, 0xF0, 0x90, 0xF0, 0xF0, 0x90, 0xF0, 0x10, 0xF0, 0xF0, 0x90, 0xF0, 0x90, 0x90, 0xE0, 0x90, 0xE0, 0x90, 0xE0,
       0xF0, 0x80, 0x80, 0x80, 0xF0, 0xE0, 0x90, 0x90, 0x90, 0xE0, 0xF0, 0x80, 0xF0, 0x80, 0xF0, 0xF0, 0x80, 0xF0, 0x80, 0x80] ∧
    t.keys = s.keys ∧ t.err = none

/-- 70_reset_and_hazards.md R203: `LOAD` copies its bytes to 0x200 upwards and changes nothing else; a program of more than 3584 bytes
is refused whole and ERR stays clear; nothing happens while ERR is set. -/
def Obligations.LoadCopiesTheProgram : Prop :=
  ∀ (s : State) (bytes : List Byte), s.mem.wf →
    (s.err = none → bytes.length ≤ 3584 → ∃ t, s.command (.load bytes) = (t, .ok) ∧
      (∀ j (h : j < bytes.length), t.mem.get (0x200 + j) = bytes[j]) ∧ SameMemoryOutside 0x200 bytes.length s t ∧
      t = { s with mem := t.mem }) ∧
    (s.err = none → bytes.length > 3584 → s.command (.load bytes) = (s, .programTooLarge bytes.length)) ∧
    (s.err ≠ none → (s.command (.load bytes)).1 = s)

/-- 60_exceptions.md R181: `TICK` subtracts 1 from each timer that is not 0, independently, and changes nothing else; nothing while
ERR is set. -/
def Obligations.TickCountsTheTimersDown : Prop :=
  ∀ s : State,
    (s.err = none → ∃ t, s.command .tick = (t, .ok) ∧ t.dt.toNat = s.dt.toNat - 1 ∧ t.st.toNat = s.st.toNat - 1 ∧
      t = { s with dt := t.dt, st := t.st }) ∧
    (s.err ≠ none → (s.command .tick).1 = s)

/-- 60_exceptions.md R182: `KEYWRITE` writes one flag and touches nothing but K, also while ERR is set. -/
def Obligations.KeyWriteSetsOneFlag : Prop :=
  ∀ (s : State) (k : RegNum) (b : Bool), ∃ t, s.command (.keyWrite k b) = (t, .ok) ∧
    (∀ j : RegNum, keyDown t j = if j = k then b else keyDown s j) ∧ t = { s with keys := t.keys }

/-- After 70_reset_and_hazards.md section 1: `RESET` then `LOAD` gives the program at 0x200 upwards and the reset contents everywhere else,
whatever the state before. -/
def Obligations.ResetThenLoadIsReproducible : Prop :=
  ∀ (s : State) (bytes : List Byte), bytes.length ≤ 3584 →
    ∃ t, s.runCommands [.reset, .load bytes] = t ∧ t.err = none ∧ t.pc = 0x200 ∧
      ∀ a < 0x1000, t.mem.get a = if a < 0x200 ∨ 0x200 + bytes.length ≤ a then resetByte a else bytes.getD (a - 0x200) 0

/-- A `STEP` after `RESET` without a `LOAD` fetches 0x0000 and ends with `ERROR(IllegalOpcode, 0x200, 0x0000)`, whatever the keypad
and the random byte (70_reset_and_hazards.md R204, which the spec marks as its own inference). -/
def Obligations.StepWithoutLoadIsIllegalOpcode : Prop :=
  ∀ (s : State) (rnd : Byte),
    ((s.command .reset).1.command (.step rnd)).2 = .error ⟨.illegalOpcode 0x0000, 0x200⟩ ∧
    (s.runCommands [.reset, .step rnd]).pc = 0x200

/-! ## Invariants -/

/-- The invariant of CORE holds right after `RESET`, whatever K holds. -/
def Obligations.InvariantHoldsAtReset : Prop :=
  State.reset.Inv ∧ ∀ k : Vector Bool 16, (State.resetWith k).Inv

/-- 10_state.md R25, R26, 41_control_flow.md R102, 60_exceptions.md R172: every step keeps the invariant. -/
def Obligations.EveryStepKeepsTheInvariant : Prop :=
  ∀ s t : State, s.Inv → step s = .next t → t.Inv

/-- 10_state.md R24, R25, R26, 60_exceptions.md R186: every command keeps the invariant; so from a `RESET` of any state and through any
list of commands after it, with any programs loaded, any random bytes and any keys, PC is at most 0x10FE and SP at most 16. -/
def Obligations.EveryCommandListKeepsTheInvariant : Prop :=
  (∀ (s : State) (cs : List Command), s.Inv → (s.runCommands cs).Inv) ∧
  (∀ (r : State) (cs : List Command),
    (r.runCommands (.reset :: cs)).pc.toNat ≤ 0x10FE ∧ (r.runCommands (.reset :: cs)).sp.toNat ≤ 16)
end

