-- ==== Sys2Proof/Laws/Decode.lean ====
section
/-! SUPPORT. The fields of a word as quotients and remainders of its number, the number of a word laid out in each format, and from
these: the fields of a laid-out word are what it was laid out from (spec 30_encoding.md R71, R72). -/

namespace Sys2Proof

/-! ## Fields and layouts as numbers -/

theorem toNat_append_eq {m n : Nat} (a : BitVec m) (b : BitVec n) : (a ++ b).toNat = a.toNat * 2 ^ n + b.toNat := by
  rw [BitVec.toNat_append, ← Nat.shiftLeft_add_eq_or_of_lt b.isLt, Nat.shiftLeft_eq]

theorem toNat_fieldOp (w : Word) : (fieldOp w).toNat = w.toNat / 4096 := by
  have := w.isLt
  simp only [fieldOp, BitVec.extractLsb'_toNat, Nat.shiftRight_eq_div_pow]
  omega

theorem val_fieldX (w : Word) : (fieldX w).val = w.toNat / 256 % 16 := by
  simp only [fieldX, regOfNibble, fieldXNibble, BitVec.extractLsb'_toNat, Nat.shiftRight_eq_div_pow]

theorem val_fieldY (w : Word) : (fieldY w).val = w.toNat / 16 % 16 := by
  simp only [fieldY, regOfNibble, fieldYNibble, BitVec.extractLsb'_toNat, Nat.shiftRight_eq_div_pow]

theorem toNat_fieldN (w : Word) : (fieldN w).toNat = w.toNat % 16 := by
  simp only [fieldN, BitVec.extractLsb'_toNat, Nat.shiftRight_eq_div_pow, pow_zero, Nat.div_one]

theorem toNat_fieldNn (w : Word) : (fieldNn w).toNat = w.toNat % 256 := by
  simp only [fieldNn, BitVec.extractLsb'_toNat, Nat.shiftRight_eq_div_pow, pow_zero, Nat.div_one]

theorem toNat_fieldNnn (w : Word) : (fieldNnn w).toNat = w.toNat % 4096 := by
  simp only [fieldNnn, BitVec.extractLsb'_toNat, Nat.shiftRight_eq_div_pow, pow_zero, Nat.div_one]

theorem toNat_nibbleOfReg (x : RegNum) : (nibbleOfReg x).toNat = x.val := by
  simp only [nibbleOfReg, BitVec.toNat_ofNat]
  omega

theorem toNat_formatA (op : Nibble) (nnn : Addr) : (formatA op nnn).toNat = op.toNat * 4096 + nnn.toNat :=
  toNat_append_eq op nnn

theorem toNat_formatXB (op : Nibble) (x : RegNum) (nn : Byte) :
    (formatXB op x nn).toNat = op.toNat * 4096 + x.val * 256 + nn.toNat := by
  have h : (formatXB op x nn).toNat = (op ++ nibbleOfReg x).toNat * 2 ^ 8 + nn.toNat := toNat_append_eq _ _
  rw [h, toNat_append_eq, toNat_nibbleOfReg]
  omega

theorem toNat_formatXY (op : Nibble) (x y : RegNum) (n : Nibble) :
    (formatXY op x y n).toNat = op.toNat * 4096 + x.val * 256 + y.val * 16 + n.toNat := by
  have h : (formatXY op x y n).toNat = ((op ++ nibbleOfReg x) ++ nibbleOfReg y).toNat * 2 ^ 4 + n.toNat :=
    toNat_append_eq _ _
  rw [h, toNat_append_eq, toNat_append_eq, toNat_nibbleOfReg, toNat_nibbleOfReg]
  omega

theorem toNat_wordOfBytes (hi lo : Byte) : (wordOfBytes hi lo).toNat = hi.toNat * 256 + lo.toNat :=
  toNat_append_eq hi lo

/-! ## The fields of a laid-out word -/

section
variable (op : Nibble) (x y : RegNum) (n : Nibble) (nn : Byte) (nnn : Addr)

@[simp] theorem fieldOp_formatA : fieldOp (formatA op nnn) = op := by
  have := nnn.isLt
  apply BitVec.eq_of_toNat_eq
  rw [toNat_fieldOp, toNat_formatA]; omega

@[simp] theorem fieldNnn_formatA : fieldNnn (formatA op nnn) = nnn := by
  have := nnn.isLt
  apply BitVec.eq_of_toNat_eq
  rw [toNat_fieldNnn, toNat_formatA]; omega

@[simp] theorem fieldOp_formatXB : fieldOp (formatXB op x nn) = op := by
  have := nn.isLt; have := x.isLt
  apply BitVec.eq_of_toNat_eq
  rw [toNat_fieldOp, toNat_formatXB]; omega

@[simp] theorem fieldX_formatXB : fieldX (formatXB op x nn) = x := by
  have := nn.isLt; have := x.isLt
  apply Fin.ext
  rw [val_fieldX, toNat_formatXB]; omega

@[simp] theorem fieldNn_formatXB : fieldNn (formatXB op x nn) = nn := by
  have := nn.isLt
  apply BitVec.eq_of_toNat_eq
  rw [toNat_fieldNn, toNat_formatXB]; omega

@[simp] theorem fieldOp_formatXY : fieldOp (formatXY op x y n) = op := by
  have := n.isLt; have := x.isLt; have := y.isLt
  apply BitVec.eq_of_toNat_eq
  rw [toNat_fieldOp, toNat_formatXY]; omega

@[simp] theorem fieldX_formatXY : fieldX (formatXY op x y n) = x := by
  have := n.isLt; have := x.isLt; have := y.isLt
  apply Fin.ext
  rw [val_fieldX, toNat_formatXY]; omega

@[simp] theorem fieldY_formatXY : fieldY (formatXY op x y n) = y := by
  have := n.isLt; have := y.isLt
  apply Fin.ext
  rw [val_fieldY, toNat_formatXY]; omega

@[simp] theorem fieldN_formatXY : fieldN (formatXY op x y n) = n := by
  have := n.isLt
  apply BitVec.eq_of_toNat_eq
  rw [toNat_fieldN, toNat_formatXY]; omega

end

/-! ## A word is the layout of its fields -/

theorem formatA_fields (w : Word) : formatA (fieldOp w) (fieldNnn w) = w := by
  apply BitVec.eq_of_toNat_eq
  rw [toNat_formatA, toNat_fieldOp, toNat_fieldNnn]; omega

theorem formatXB_fields (w : Word) : formatXB (fieldOp w) (fieldX w) (fieldNn w) = w := by
  apply BitVec.eq_of_toNat_eq
  rw [toNat_formatXB, toNat_fieldOp, val_fieldX, toNat_fieldNn]; omega

theorem formatXY_fields (w : Word) : formatXY (fieldOp w) (fieldX w) (fieldY w) (fieldN w) = w := by
  apply BitVec.eq_of_toNat_eq
  rw [toNat_formatXY, toNat_fieldOp, val_fieldX, val_fieldY, toNat_fieldN]; omega

/-- The two bytes of a word in memory order give the word back (20_memory.md R51). -/
theorem wordOfBytes_bytesOfWord (w : Word) : wordOfBytes (w.extractLsb' 8 8) (w.extractLsb' 0 8) = w := by
  have := w.isLt
  apply BitVec.eq_of_toNat_eq
  rw [toNat_wordOfBytes, BitVec.extractLsb'_toNat, BitVec.extractLsb'_toNat, Nat.shiftRight_eq_div_pow,
    Nat.shiftRight_eq_div_pow]
  omega

/-- An error of a conditional is an error of one of its branches. -/
theorem error_of_ite {c : Prop} [Decidable c] {a b : Except DecodeError Instr} {e : DecodeError}
    (h : (if c then a else b) = .error e) : a = .error e ∨ b = .error e := by
  split at h
  · exact .inl h
  · exact .inr h

theorem decodeGroup0_error {w : Word} {e : DecodeError} (h : decodeGroup0 w = .error e) : e = .illegalOpcode w := by
  unfold decodeGroup0 at h
  repeat (refine (error_of_ite h).elim nofun fun h' => ?_; clear h; rename' h' => h)
  exact (Except.error.inj h).symm

theorem decodeGroup8_error {w : Word} {e : DecodeError} (h : decodeGroup8 w = .error e) : e = .illegalOpcode w := by
  unfold decodeGroup8 at h
  repeat (refine (error_of_ite h).elim nofun fun h' => ?_; clear h; rename' h' => h)
  exact (Except.error.inj h).symm

theorem decodeGroupE_error {w : Word} {e : DecodeError} (h : decodeGroupE w = .error e) : e = .illegalOpcode w := by
  unfold decodeGroupE at h
  repeat (refine (error_of_ite h).elim nofun fun h' => ?_; clear h; rename' h' => h)
  exact (Except.error.inj h).symm

theorem decodeGroupF_error {w : Word} {e : DecodeError} (h : decodeGroupF w = .error e) : e = .illegalOpcode w := by
  unfold decodeGroupF at h
  repeat (refine (error_of_ite h).elim nofun fun h' => ?_; clear h; rename' h' => h)
  exact (Except.error.inj h).symm

/-- The only error a word decodes to is `IllegalOpcode` with the word itself (30_encoding.md R78). -/
theorem decodeWord_error {w : Word} {e : DecodeError} (h : decodeWord w = .error e) : e = .illegalOpcode w := by
  unfold decodeWord at h
  have h0 := @decodeGroup0_error w e
  have h8 := @decodeGroup8_error w e
  have hE := @decodeGroupE_error w e
  have hF := @decodeGroupF_error w e
  generalize decodeGroup0 w = g0 at h h0
  generalize decodeGroup8 w = g8 at h h8
  generalize decodeGroupE w = gE at h hE
  generalize decodeGroupF w = gF at h hF
  repeat (refine (error_of_ite h).elim (by first | assumption | exact nofun) fun h' => ?_; clear h; rename' h' => h)
  exact hF h

end Sys2Proof
end

