-- ==== Sys2Proof/Laws/Flags.lean ====
section
/-! SUPPORT. The flag computations as numbers (spec 42_alu.md R126 to R131): what a proof about a flag cites instead of unfolding the
9-bit sum. -/

namespace Sys2Proof.Machine

theorem sum9_toNat (a b : Byte) : (sum9 a b).toNat = a.toNat + b.toNat := by
  simp only [sum9, BitVec.toNat_add, BitVec.toNat_setWidth]; omega

theorem sumByte_toNat (a b : Byte) : (sumByte a b).toNat = (a.toNat + b.toNat) % 256 := by
  rw [sumByte, BitVec.toNat_setWidth, sum9_toNat]

theorem carryFlag_eq_ite (a b : Byte) : carryFlag a b = if a.toNat + b.toNat > 255 then 1 else 0 := by
  have h : (sum9 a b).getLsbD 8 = decide (a.toNat + b.toNat > 255) := by
    have hm : (sum9 a b).getLsbD 8 = (sum9 a b).msb := rfl
    rw [hm, BitVec.msb_eq_decide, sum9_toNat]; congr 1
  simp only [carryFlag, flagByte, h, decide_eq_true_eq]

theorem noBorrowFlag_eq_ite (a b : Byte) : noBorrowFlag a b = if a.toNat ≥ b.toNat then 1 else 0 := by
  simp [noBorrowFlag, flagByte]

theorem differenceByte_eq (a b : Byte) : differenceByte a b = BitVec.ofInt 8 ((a.toNat - b.toNat : Int) % 256) := by
  apply BitVec.eq_of_toNat_eq
  simp [differenceByte, BitVec.toNat_sub, BitVec.toNat_ofInt]; omega

theorem shiftedOutRight_eq (a : Byte) : shiftedOutRight a = BitVec.ofNat 8 (a.toNat % 2) := by
  revert a; decide

theorem shiftedOutLeft_eq (a : Byte) : shiftedOutLeft a = BitVec.ofNat 8 (a.toNat / 128) := by
  revert a; decide

end Sys2Proof.Machine
end

