-- ==== Sys2Proof/Laws/Memory.lean ====
section
/-! SUPPORT. The laws of MEM (spec 20_memory.md R54, R60): a read after a write, and that every memory operation keeps the
canonical form. -/

namespace Sys2Proof.Machine

theorem Memory.wf_nil : Memory.wf [] := ⟨.nil, nofun⟩

theorem Memory.wf_tail {c : Host.Cell} {m : Memory} (h : Memory.wf (c :: m)) : Memory.wf m :=
  ⟨h.1.of_cons, fun d hd => h.2 d (List.mem_cons_of_mem _ hd)⟩

theorem Memory.wf_lt {c : Host.Cell} {m : Memory} (h : Memory.wf (c :: m)) : ∀ d ∈ m, c.1 < d.1 :=
  fun _ hd => List.rel_of_pairwise_cons h.1 hd

/-- An address below every listed one reads as its reset contents. -/
theorem Memory.get_of_forall_ne {m : Memory} {a : Nat} (h : ∀ c ∈ m, c.1 ≠ a) : Memory.get m a = resetByte a := by
  induction m with
  | nil => rfl
  | cons c m ih =>
    rw [Memory.get, if_neg (h c (by simp)), ih fun d hd => h d (by simp [hd])]

theorem Memory.get_cons {m : Memory} {a : Nat} (b : Byte) (h : ∀ c ∈ m, c.1 ≠ a) (a' : Nat) :
    Memory.get (Memory.cons a b m) a' = if a' = a then b else Memory.get m a' := by
  unfold Memory.cons
  split
  · split
    · subst_vars; exact Memory.get_of_forall_ne h
    · rfl
  · simp only [Memory.get, eq_comm]

/-- A read after a write: the byte written at that address, every other byte as before (R54, R60). -/
theorem Memory.get_set {m : Memory} (h : m.wf) (a : Nat) (b : Byte) (a' : Nat) :
    (Memory.set m a b).get a' = if a' = a then b else Memory.get m a' := by
  induction m with
  | nil => exact Memory.get_cons b (by simp) a'
  | cons c m ih =>
    have hlt := Memory.wf_lt h
    rw [Memory.set]
    split
    · rename_i hc
      rw [Memory.get, Memory.get, ih (Memory.wf_tail h)]
      split
      · rw [if_neg (by omega)]
      · rfl
    · split
      · rename_i hc
        rw [Memory.get_cons b (fun d hd => by have := hlt d hd; omega), Memory.get]
        split
        · rfl
        · rw [if_neg (by omega)]
      · rename_i h1 h2
        rw [Memory.get_cons b]
        intro d hd
        rcases List.mem_cons.1 hd with rfl | hd
        · exact h2
        · have := hlt d hd; omega

theorem Memory.mem_cons_cells {m : Memory} {a : Nat} {b : Byte} {d : Host.Cell} (h : d ∈ Memory.cons a b m) :
    d = (a, b) ∧ b ≠ resetByte a ∨ d ∈ m := by
  unfold Memory.cons at h
  split at h
  · exact .inr h
  · rcases List.mem_cons.1 h with h | h
    · exact .inl ⟨h, by assumption⟩
    · exact .inr h

/-- Every cell after a write is the written one or was there before. -/
theorem Memory.mem_set_cells {m : Memory} {a : Nat} {b : Byte} {d : Host.Cell} (h : d ∈ Memory.set m a b) :
    d = (a, b) ∧ b ≠ resetByte a ∨ d ∈ m := by
  induction m with
  | nil => exact Memory.mem_cons_cells h
  | cons c m ih =>
    rw [Memory.set] at h
    split at h
    · rcases List.mem_cons.1 h with h | h
      · exact .inr (by simp [h])
      · exact (ih h).imp_right (List.mem_cons_of_mem _)
    · split at h
      · exact (Memory.mem_cons_cells h).imp_right (List.mem_cons_of_mem _)
      · exact Memory.mem_cons_cells h

theorem Memory.wf_cons {m : Memory} {a : Nat} {b : Byte} (h : m.wf) (ha : a < 0x1000) (hlt : ∀ c ∈ m, a < c.1) :
    (Memory.cons a b m).wf := by
  unfold Memory.cons
  split
  · exact h
  · exact ⟨List.pairwise_cons.2 ⟨hlt, h.1⟩, by
      rintro d hd
      rcases List.mem_cons.1 hd with rfl | hd
      · exact ⟨ha, by assumption⟩
      · exact h.2 d hd⟩

/-- A write below 0x1000 keeps the canonical form. -/
theorem Memory.wf_set {m : Memory} (h : m.wf) {a : Nat} (ha : a < 0x1000) (b : Byte) : (Memory.set m a b).wf := by
  induction m with
  | nil => exact Memory.wf_cons Memory.wf_nil ha (by simp)
  | cons c m ih =>
    have hlt := Memory.wf_lt h
    have hc := h.2 c (by simp)
    have ht := Memory.wf_tail h
    rw [Memory.set]
    split
    · refine ⟨List.pairwise_cons.2 ⟨fun d hd => ?_, (ih ht).1⟩, fun d hd => ?_⟩
      · rcases Memory.mem_set_cells hd with ⟨rfl, -⟩ | hd
        · assumption
        · exact hlt d hd
      · rcases List.mem_cons.1 hd with rfl | hd
        · exact hc
        · exact (ih ht).2 d hd
    · split
      · exact Memory.wf_cons ht ha (fun d hd => by have := hlt d hd; omega)
      · refine Memory.wf_cons h ha fun d hd => ?_
        rcases List.mem_cons.1 hd with rfl | hd
        · omega
        · have := hlt d hd; omega

/-- A block write inside the address space keeps the canonical form. -/
theorem Memory.wf_setBlock {m : Memory} (h : m.wf) {a : Nat} {bs : List Byte} (ha : a + bs.length ≤ 0x1000) :
    (Memory.setBlock m a bs).wf := by
  induction bs generalizing m a with
  | nil => exact h
  | cons b bs ih =>
    simp only [List.length_cons] at ha
    exact ih (Memory.wf_set h (by omega) b) (by omega)

/-- A read after a block write: byte `j` of the block at `a + j`, every other byte as before (R53, R54). -/
theorem Memory.get_setBlock {m : Memory} (h : m.wf) {a : Nat} {bs : List Byte} (ha : a + bs.length ≤ 0x1000) (a' : Nat) :
    (Memory.setBlock m a bs).get a' = if a ≤ a' ∧ a' < a + bs.length then bs.getD (a' - a) 0 else Memory.get m a' := by
  induction bs generalizing m a with
  | nil => rw [if_neg (by simp only [List.length_nil]; omega)]; rfl
  | cons b bs ih =>
    simp only [List.length_cons] at ha
    rw [Memory.setBlock, ih (Memory.wf_set h (by omega) b) (by omega), Memory.get_set h]
    by_cases e : a' = a
    · subst e
      simp
    · by_cases h1 : a ≤ a' ∧ a' < a + (b :: bs).length
      · have h2 : a + 1 ≤ a' ∧ a' < a + 1 + bs.length := by simp at h1; omega
        have e' : a' - a = (a' - (a + 1)) + 1 := by omega
        simp only [if_pos h1, if_pos h2, e', List.getD_cons_succ]
      · have h2 : ¬ (a + 1 ≤ a' ∧ a' < a + 1 + bs.length) := by simp at h1; omega
        simp only [if_neg h1, if_neg h2, if_neg e]

end Sys2Proof.Machine
end

