-- ==== Sys2Proof/Laws/State.lean ====
section
/-! SUPPORT. One lemma per field per update of State, each true by rfl, so that no proof unfolds a record update; and the compound
updates as chains of the simple ones. -/

namespace Sys2Proof.Machine

variable (s : State)

/-! ## One lemma per field per update -/

@[simp] theorem State.setV_v (r : RegNum) (b : Byte) : (s.setV r b).v = s.v.set r.val b r.isLt := rfl
@[simp] theorem State.setV_idx (r : RegNum) (b : Byte) : (s.setV r b).idx = s.idx := rfl
@[simp] theorem State.setV_pc (r : RegNum) (b : Byte) : (s.setV r b).pc = s.pc := rfl
@[simp] theorem State.setV_sp (r : RegNum) (b : Byte) : (s.setV r b).sp = s.sp := rfl
@[simp] theorem State.setV_stack (r : RegNum) (b : Byte) : (s.setV r b).stack = s.stack := rfl
@[simp] theorem State.setV_dt (r : RegNum) (b : Byte) : (s.setV r b).dt = s.dt := rfl
@[simp] theorem State.setV_st (r : RegNum) (b : Byte) : (s.setV r b).st = s.st := rfl
@[simp] theorem State.setV_keys (r : RegNum) (b : Byte) : (s.setV r b).keys = s.keys := rfl
@[simp] theorem State.setV_fb (r : RegNum) (b : Byte) : (s.setV r b).fb = s.fb := rfl
@[simp] theorem State.setV_mem (r : RegNum) (b : Byte) : (s.setV r b).mem = s.mem := rfl
@[simp] theorem State.setV_err (r : RegNum) (b : Byte) : (s.setV r b).err = s.err := rfl
@[simp] theorem State.setV_rndIn (r : RegNum) (b : Byte) : (s.setV r b).rndIn = s.rndIn := rfl
@[simp] theorem State.setV_rndUsed (r : RegNum) (b : Byte) : (s.setV r b).rndUsed = s.rndUsed := rfl

@[simp] theorem State.setIdx_v (a : Word) : (s.setIdx a).v = s.v := rfl
@[simp] theorem State.setIdx_idx (a : Word) : (s.setIdx a).idx = a := rfl
@[simp] theorem State.setIdx_pc (a : Word) : (s.setIdx a).pc = s.pc := rfl
@[simp] theorem State.setIdx_sp (a : Word) : (s.setIdx a).sp = s.sp := rfl
@[simp] theorem State.setIdx_stack (a : Word) : (s.setIdx a).stack = s.stack := rfl
@[simp] theorem State.setIdx_dt (a : Word) : (s.setIdx a).dt = s.dt := rfl
@[simp] theorem State.setIdx_st (a : Word) : (s.setIdx a).st = s.st := rfl
@[simp] theorem State.setIdx_keys (a : Word) : (s.setIdx a).keys = s.keys := rfl
@[simp] theorem State.setIdx_fb (a : Word) : (s.setIdx a).fb = s.fb := rfl
@[simp] theorem State.setIdx_mem (a : Word) : (s.setIdx a).mem = s.mem := rfl
@[simp] theorem State.setIdx_err (a : Word) : (s.setIdx a).err = s.err := rfl
@[simp] theorem State.setIdx_rndIn (a : Word) : (s.setIdx a).rndIn = s.rndIn := rfl
@[simp] theorem State.setIdx_rndUsed (a : Word) : (s.setIdx a).rndUsed = s.rndUsed := rfl

@[simp] theorem State.setPc_v (a : Word) : (s.setPc a).v = s.v := rfl
@[simp] theorem State.setPc_idx (a : Word) : (s.setPc a).idx = s.idx := rfl
@[simp] theorem State.setPc_pc (a : Word) : (s.setPc a).pc = a := rfl
@[simp] theorem State.setPc_sp (a : Word) : (s.setPc a).sp = s.sp := rfl
@[simp] theorem State.setPc_stack (a : Word) : (s.setPc a).stack = s.stack := rfl
@[simp] theorem State.setPc_dt (a : Word) : (s.setPc a).dt = s.dt := rfl
@[simp] theorem State.setPc_st (a : Word) : (s.setPc a).st = s.st := rfl
@[simp] theorem State.setPc_keys (a : Word) : (s.setPc a).keys = s.keys := rfl
@[simp] theorem State.setPc_fb (a : Word) : (s.setPc a).fb = s.fb := rfl
@[simp] theorem State.setPc_mem (a : Word) : (s.setPc a).mem = s.mem := rfl
@[simp] theorem State.setPc_err (a : Word) : (s.setPc a).err = s.err := rfl
@[simp] theorem State.setPc_rndIn (a : Word) : (s.setPc a).rndIn = s.rndIn := rfl
@[simp] theorem State.setPc_rndUsed (a : Word) : (s.setPc a).rndUsed = s.rndUsed := rfl

@[simp] theorem State.setDt_v (b : Byte) : (s.setDt b).v = s.v := rfl
@[simp] theorem State.setDt_idx (b : Byte) : (s.setDt b).idx = s.idx := rfl
@[simp] theorem State.setDt_pc (b : Byte) : (s.setDt b).pc = s.pc := rfl
@[simp] theorem State.setDt_sp (b : Byte) : (s.setDt b).sp = s.sp := rfl
@[simp] theorem State.setDt_stack (b : Byte) : (s.setDt b).stack = s.stack := rfl
@[simp] theorem State.setDt_dt (b : Byte) : (s.setDt b).dt = b := rfl
@[simp] theorem State.setDt_st (b : Byte) : (s.setDt b).st = s.st := rfl
@[simp] theorem State.setDt_keys (b : Byte) : (s.setDt b).keys = s.keys := rfl
@[simp] theorem State.setDt_fb (b : Byte) : (s.setDt b).fb = s.fb := rfl
@[simp] theorem State.setDt_mem (b : Byte) : (s.setDt b).mem = s.mem := rfl
@[simp] theorem State.setDt_err (b : Byte) : (s.setDt b).err = s.err := rfl
@[simp] theorem State.setDt_rndIn (b : Byte) : (s.setDt b).rndIn = s.rndIn := rfl
@[simp] theorem State.setDt_rndUsed (b : Byte) : (s.setDt b).rndUsed = s.rndUsed := rfl

@[simp] theorem State.setSt_v (b : Byte) : (s.setSt b).v = s.v := rfl
@[simp] theorem State.setSt_idx (b : Byte) : (s.setSt b).idx = s.idx := rfl
@[simp] theorem State.setSt_pc (b : Byte) : (s.setSt b).pc = s.pc := rfl
@[simp] theorem State.setSt_sp (b : Byte) : (s.setSt b).sp = s.sp := rfl
@[simp] theorem State.setSt_stack (b : Byte) : (s.setSt b).stack = s.stack := rfl
@[simp] theorem State.setSt_dt (b : Byte) : (s.setSt b).dt = s.dt := rfl
@[simp] theorem State.setSt_st (b : Byte) : (s.setSt b).st = b := rfl
@[simp] theorem State.setSt_keys (b : Byte) : (s.setSt b).keys = s.keys := rfl
@[simp] theorem State.setSt_fb (b : Byte) : (s.setSt b).fb = s.fb := rfl
@[simp] theorem State.setSt_mem (b : Byte) : (s.setSt b).mem = s.mem := rfl
@[simp] theorem State.setSt_err (b : Byte) : (s.setSt b).err = s.err := rfl
@[simp] theorem State.setSt_rndIn (b : Byte) : (s.setSt b).rndIn = s.rndIn := rfl
@[simp] theorem State.setSt_rndUsed (b : Byte) : (s.setSt b).rndUsed = s.rndUsed := rfl

@[simp] theorem State.setMem_v (m : Memory) : (s.setMem m).v = s.v := rfl
@[simp] theorem State.setMem_idx (m : Memory) : (s.setMem m).idx = s.idx := rfl
@[simp] theorem State.setMem_pc (m : Memory) : (s.setMem m).pc = s.pc := rfl
@[simp] theorem State.setMem_sp (m : Memory) : (s.setMem m).sp = s.sp := rfl
@[simp] theorem State.setMem_stack (m : Memory) : (s.setMem m).stack = s.stack := rfl
@[simp] theorem State.setMem_dt (m : Memory) : (s.setMem m).dt = s.dt := rfl
@[simp] theorem State.setMem_st (m : Memory) : (s.setMem m).st = s.st := rfl
@[simp] theorem State.setMem_keys (m : Memory) : (s.setMem m).keys = s.keys := rfl
@[simp] theorem State.setMem_fb (m : Memory) : (s.setMem m).fb = s.fb := rfl
@[simp] theorem State.setMem_mem (m : Memory) : (s.setMem m).mem = m := rfl
@[simp] theorem State.setMem_err (m : Memory) : (s.setMem m).err = s.err := rfl
@[simp] theorem State.setMem_rndIn (m : Memory) : (s.setMem m).rndIn = s.rndIn := rfl
@[simp] theorem State.setMem_rndUsed (m : Memory) : (s.setMem m).rndUsed = s.rndUsed := rfl

@[simp] theorem State.setFb_v (f : Framebuffer) : (s.setFb f).v = s.v := rfl
@[simp] theorem State.setFb_idx (f : Framebuffer) : (s.setFb f).idx = s.idx := rfl
@[simp] theorem State.setFb_pc (f : Framebuffer) : (s.setFb f).pc = s.pc := rfl
@[simp] theorem State.setFb_sp (f : Framebuffer) : (s.setFb f).sp = s.sp := rfl
@[simp] theorem State.setFb_stack (f : Framebuffer) : (s.setFb f).stack = s.stack := rfl
@[simp] theorem State.setFb_dt (f : Framebuffer) : (s.setFb f).dt = s.dt := rfl
@[simp] theorem State.setFb_st (f : Framebuffer) : (s.setFb f).st = s.st := rfl
@[simp] theorem State.setFb_keys (f : Framebuffer) : (s.setFb f).keys = s.keys := rfl
@[simp] theorem State.setFb_fb (f : Framebuffer) : (s.setFb f).fb = f := rfl
@[simp] theorem State.setFb_mem (f : Framebuffer) : (s.setFb f).mem = s.mem := rfl
@[simp] theorem State.setFb_err (f : Framebuffer) : (s.setFb f).err = s.err := rfl
@[simp] theorem State.setFb_rndIn (f : Framebuffer) : (s.setFb f).rndIn = s.rndIn := rfl
@[simp] theorem State.setFb_rndUsed (f : Framebuffer) : (s.setFb f).rndUsed = s.rndUsed := rfl

@[simp] theorem State.raise_v (c : Cause) : (s.raise c).v = s.v := rfl
@[simp] theorem State.raise_idx (c : Cause) : (s.raise c).idx = s.idx := rfl
@[simp] theorem State.raise_pc (c : Cause) : (s.raise c).pc = s.pc := rfl
@[simp] theorem State.raise_sp (c : Cause) : (s.raise c).sp = s.sp := rfl
@[simp] theorem State.raise_stack (c : Cause) : (s.raise c).stack = s.stack := rfl
@[simp] theorem State.raise_dt (c : Cause) : (s.raise c).dt = s.dt := rfl
@[simp] theorem State.raise_st (c : Cause) : (s.raise c).st = s.st := rfl
@[simp] theorem State.raise_keys (c : Cause) : (s.raise c).keys = s.keys := rfl
@[simp] theorem State.raise_fb (c : Cause) : (s.raise c).fb = s.fb := rfl
@[simp] theorem State.raise_mem (c : Cause) : (s.raise c).mem = s.mem := rfl
@[simp] theorem State.raise_err (c : Cause) : (s.raise c).err = some ⟨c, s.pc⟩ := rfl
@[simp] theorem State.raise_rndIn (c : Cause) : (s.raise c).rndIn = s.rndIn := rfl
@[simp] theorem State.raise_rndUsed (c : Cause) : (s.raise c).rndUsed = s.rndUsed := rfl

@[simp] theorem State.push_v (k : RegNum) (a : Word) : (s.push k a).v = s.v := rfl
@[simp] theorem State.push_idx (k : RegNum) (a : Word) : (s.push k a).idx = s.idx := rfl
@[simp] theorem State.push_pc (k : RegNum) (a : Word) : (s.push k a).pc = s.pc := rfl
@[simp] theorem State.push_sp (k : RegNum) (a : Word) : (s.push k a).sp = s.sp + 1 := rfl
@[simp] theorem State.push_stack (k : RegNum) (a : Word) : (s.push k a).stack = s.stack.set k.val a k.isLt := rfl
@[simp] theorem State.push_dt (k : RegNum) (a : Word) : (s.push k a).dt = s.dt := rfl
@[simp] theorem State.push_st (k : RegNum) (a : Word) : (s.push k a).st = s.st := rfl
@[simp] theorem State.push_keys (k : RegNum) (a : Word) : (s.push k a).keys = s.keys := rfl
@[simp] theorem State.push_fb (k : RegNum) (a : Word) : (s.push k a).fb = s.fb := rfl
@[simp] theorem State.push_mem (k : RegNum) (a : Word) : (s.push k a).mem = s.mem := rfl
@[simp] theorem State.push_err (k : RegNum) (a : Word) : (s.push k a).err = s.err := rfl
@[simp] theorem State.push_rndIn (k : RegNum) (a : Word) : (s.push k a).rndIn = s.rndIn := rfl
@[simp] theorem State.push_rndUsed (k : RegNum) (a : Word) : (s.push k a).rndUsed = s.rndUsed := rfl

@[simp] theorem State.pop_v : (s.pop).v = s.v := rfl
@[simp] theorem State.pop_idx : (s.pop).idx = s.idx := rfl
@[simp] theorem State.pop_pc : (s.pop).pc = s.pc := rfl
@[simp] theorem State.pop_sp : (s.pop).sp = s.sp - 1 := rfl
@[simp] theorem State.pop_stack : (s.pop).stack = s.stack := rfl
@[simp] theorem State.pop_dt : (s.pop).dt = s.dt := rfl
@[simp] theorem State.pop_st : (s.pop).st = s.st := rfl
@[simp] theorem State.pop_keys : (s.pop).keys = s.keys := rfl
@[simp] theorem State.pop_fb : (s.pop).fb = s.fb := rfl
@[simp] theorem State.pop_mem : (s.pop).mem = s.mem := rfl
@[simp] theorem State.pop_err : (s.pop).err = s.err := rfl
@[simp] theorem State.pop_rndIn : (s.pop).rndIn = s.rndIn := rfl
@[simp] theorem State.pop_rndUsed : (s.pop).rndUsed = s.rndUsed := rfl

@[simp] theorem State.useRand_v : (s.useRand).v = s.v := rfl
@[simp] theorem State.useRand_idx : (s.useRand).idx = s.idx := rfl
@[simp] theorem State.useRand_pc : (s.useRand).pc = s.pc := rfl
@[simp] theorem State.useRand_sp : (s.useRand).sp = s.sp := rfl
@[simp] theorem State.useRand_stack : (s.useRand).stack = s.stack := rfl
@[simp] theorem State.useRand_dt : (s.useRand).dt = s.dt := rfl
@[simp] theorem State.useRand_st : (s.useRand).st = s.st := rfl
@[simp] theorem State.useRand_keys : (s.useRand).keys = s.keys := rfl
@[simp] theorem State.useRand_fb : (s.useRand).fb = s.fb := rfl
@[simp] theorem State.useRand_mem : (s.useRand).mem = s.mem := rfl
@[simp] theorem State.useRand_err : (s.useRand).err = s.err := rfl
@[simp] theorem State.useRand_rndIn : (s.useRand).rndIn = s.rndIn.tail := rfl
@[simp] theorem State.useRand_rndUsed : (s.useRand).rndUsed = s.rndUsed + 1 := rfl

@[simp] theorem State.withRandIn_v (bs : List Byte) : (s.withRandIn bs).v = s.v := rfl
@[simp] theorem State.withRandIn_idx (bs : List Byte) : (s.withRandIn bs).idx = s.idx := rfl
@[simp] theorem State.withRandIn_pc (bs : List Byte) : (s.withRandIn bs).pc = s.pc := rfl
@[simp] theorem State.withRandIn_sp (bs : List Byte) : (s.withRandIn bs).sp = s.sp := rfl
@[simp] theorem State.withRandIn_stack (bs : List Byte) : (s.withRandIn bs).stack = s.stack := rfl
@[simp] theorem State.withRandIn_dt (bs : List Byte) : (s.withRandIn bs).dt = s.dt := rfl
@[simp] theorem State.withRandIn_st (bs : List Byte) : (s.withRandIn bs).st = s.st := rfl
@[simp] theorem State.withRandIn_keys (bs : List Byte) : (s.withRandIn bs).keys = s.keys := rfl
@[simp] theorem State.withRandIn_fb (bs : List Byte) : (s.withRandIn bs).fb = s.fb := rfl
@[simp] theorem State.withRandIn_mem (bs : List Byte) : (s.withRandIn bs).mem = s.mem := rfl
@[simp] theorem State.withRandIn_err (bs : List Byte) : (s.withRandIn bs).err = s.err := rfl
@[simp] theorem State.withRandIn_rndIn (bs : List Byte) : (s.withRandIn bs).rndIn = bs := rfl
@[simp] theorem State.withRandIn_rndUsed (bs : List Byte) : (s.withRandIn bs).rndUsed = s.rndUsed := rfl

/-! ## Compound updates as chains of simple ones -/

@[simp] theorem State.advance_eq : s.advance = s.setPc (s.pc + 2) := rfl

@[simp] theorem State.skipIf_eq (c : Bool) : s.skipIf c = s.setPc (if c then s.pc + 2 + 2 else s.pc + 2) := rfl

@[simp] theorem State.setVFlag_eq (x : RegNum) (b flag : Byte) : s.setVFlag x b flag = (s.setV x b).setV vf flag := rfl

@[simp] theorem State.setVLogic_eq (x : RegNum) (b : Byte) : s.setVLogic x b = s.setV x b := rfl

@[simp] theorem State.idxAfterBlock_eq (n : Nat) : s.idxAfterBlock n = s := rfl

@[simp] theorem State.writeBlock_eq (bs : List Byte) :
    s.writeBlock bs = s.setMem (s.mem.setBlock s.idx.toNat bs) := rfl

@[simp] theorem shiftOperand_eq (x y : RegNum) : shiftOperand s x y = s.getV x := rfl

@[simp] theorem offsetTarget_eq (nnn : Addr) : offsetTarget s nnn = addrOperand nnn + (s.getV 0).setWidth 16 := rfl

/-! ## Reading a general register -/

/-- A write changes the register it names and no other (spec 10_state.md R20). -/
theorem State.getV_setV (r q : RegNum) (b : Byte) : (s.setV r b).getV q = if q = r then b else s.getV q := by
  simp only [State.getV, State.setV, Vector.getElem_set, Fin.ext_iff, eq_comm]

@[simp] theorem State.getV_setV_self (r : RegNum) (b : Byte) : (s.setV r b).getV r = b := by
  simp [State.getV_setV]

theorem State.getV_setV_ne {r q : RegNum} (b : Byte) (h : q ≠ r) : (s.setV r b).getV q = s.getV q := by
  simp [State.getV_setV, h]

@[simp] theorem State.getV_setIdx (q : RegNum) (a : Word) : (s.setIdx a).getV q = s.getV q := rfl
@[simp] theorem State.getV_setPc (q : RegNum) (a : Word) : (s.setPc a).getV q = s.getV q := rfl
@[simp] theorem State.getV_setDt (q : RegNum) (b : Byte) : (s.setDt b).getV q = s.getV q := rfl
@[simp] theorem State.getV_setSt (q : RegNum) (b : Byte) : (s.setSt b).getV q = s.getV q := rfl
@[simp] theorem State.getV_setMem (q : RegNum) (m : Memory) : (s.setMem m).getV q = s.getV q := rfl
@[simp] theorem State.getV_setFb (q : RegNum) (f : Framebuffer) : (s.setFb f).getV q = s.getV q := rfl
@[simp] theorem State.getV_raise (q : RegNum) (c : Cause) : (s.raise c).getV q = s.getV q := rfl
@[simp] theorem State.getV_push (q : RegNum) (k : RegNum) (a : Word) : (s.push k a).getV q = s.getV q := rfl
@[simp] theorem State.getV_pop (q : RegNum) : (s.pop).getV q = s.getV q := rfl
@[simp] theorem State.getV_withRandIn (q : RegNum) (bs : List Byte) : (s.withRandIn bs).getV q = s.getV q := rfl
@[simp] theorem State.getV_useRand (q : RegNum) : (s.useRand).getV q = s.getV q := rfl

/-! ## Bytes put into consecutive registers (R145) -/

/-- Putting bytes into V[k], V[k+1], ... changes V alone. -/
theorem State.setVs_frame (k : Nat) (bs : List Byte) : s.setVs k bs = { s with v := (s.setVs k bs).v } := by
  induction bs generalizing s k with
  | nil => rfl
  | cons b bs ih =>
    rw [State.setVs, ih]
    split <;> rfl

/-- Putting bytes into registers does not depend on the random input. -/
theorem State.setVs_withRandIn (k : Nat) (bs rs : List Byte) : (s.withRandIn rs).setVs k bs = (s.setVs k bs).withRandIn rs := by
  induction bs generalizing s k with
  | nil => rfl
  | cons b bs ih =>
    rw [State.setVs, State.setVs, ← ih]
    split <;> rfl

/-- V[k + j] receives byte `j`; the registers outside the block keep their values. -/
theorem State.getV_setVs (k : Nat) (bs : List Byte) (q : RegNum) :
    (s.setVs k bs).getV q = if k ≤ q.val ∧ q.val < k + bs.length then bs.getD (q.val - k) 0 else s.getV q := by
  induction bs generalizing s k with
  | nil => rw [if_neg (by simp only [List.length_nil]; omega)]; rfl
  | cons b bs ih =>
    rw [State.setVs, ih]
    have hq := q.isLt
    by_cases hkq : q.val = k
    · have hk : k < 16 := by omega
      have : q = ⟨k, hk⟩ := Fin.ext hkq
      simp [hk, this]
    · have hV : (if h : k < 16 then s.setV ⟨k, h⟩ b else s).getV q = s.getV q := by
        split
        · exact s.getV_setV_ne b (by simpa [Fin.ext_iff] using hkq)
        · rfl
      rw [hV]
      by_cases h : k ≤ q.val ∧ q.val < k + (b :: bs).length
      · have h' : k + 1 ≤ q.val ∧ q.val < k + 1 + bs.length := by simp at h; omega
        have e : q.val - k = (q.val - (k + 1)) + 1 := by omega
        simp only [if_pos h, if_pos h', e, List.getD_cons_succ]
      · have h' : ¬ (k + 1 ≤ q.val ∧ q.val < k + 1 + bs.length) := by simp at h; omega
        simp only [if_neg h, if_neg h']

end Sys2Proof.Machine
end

