-- ==== Sys2Proof/Laws/Ops.lean ====
section
/-! SUPPORT. What each shared operation does, said once: the block check, the block read, fetch, toggling and drawing pixels, the
least key. Later proofs cite these and do not unfold the operations. -/

namespace Sys2Proof.Machine

variable (s : State)

/-! ## The block check and the block read (spec 43_index_memory.md R146) -/

theorem State.blockError_eq_none {n : Nat} (h : n = 0 ∨ s.idx.toNat + (n - 1) ≤ 0xFFF) : s.blockError n = none :=
  if_neg (by omega)

theorem State.blockError_eq_some {n : Nat} (hn : n > 0) (h : s.idx.toNat + (n - 1) > 0xFFF) :
    s.blockError n = some (.memoryOutOfBounds (max s.idx.toNat 0x1000)) :=
  if_pos ⟨hn, h⟩

/-- The two outcomes of the block check. -/
theorem State.blockError_cases (n : Nat) :
    (s.blockError n = none ∧ (n = 0 ∨ s.idx.toNat + (n - 1) ≤ 0xFFF)) ∨
    (s.blockError n = some (.memoryOutOfBounds (max s.idx.toNat 0x1000)) ∧ n > 0 ∧ s.idx.toNat + (n - 1) > 0xFFF) := by
  by_cases h : n > 0 ∧ s.idx.toNat + (n - 1) > 0xFFF
  · exact .inr ⟨s.blockError_eq_some h.1 h.2, h⟩
  · exact .inl ⟨if_neg h, by omega⟩

@[simp] theorem State.readBlock_length (n : Nat) : (s.readBlock n).length = n := by
  simp [State.readBlock]

theorem State.readBlock_getD {n k : Nat} (h : k < n) : (s.readBlock n).getD k 0 = s.mem.get (s.idx.toNat + k) := by
  simp [State.readBlock, List.getD_eq_getElem?_getD, h]

@[simp] theorem registersThrough_length (x : RegNum) : (registersThrough s x).length = x.val + 1 := by
  simp [registersThrough]

theorem registersThrough_getD (x k : RegNum) (h : k ≤ x) : (registersThrough s x).getD k.val 0 = s.getV k := by
  have hk : k.val < x.val + 1 := by have := Fin.le_def.1 h; omega
  simp [registersThrough, List.getD_eq_getElem?_getD, hk, State.getV]

/-! ## Fetch (40_step_cycle.md R91) -/

/-- The three outcomes of a fetch. -/
theorem State.fetch_cases :
    (s.pc.toNat > 0xFFF ∧ s.fetch = .error (.memoryOutOfBounds s.pc.toNat)) ∨
    (s.pc.toNat = 0xFFF ∧ s.fetch = .error (.memoryOutOfBounds 0x1000)) ∨
    (s.pc.toNat ≤ 0xFFE ∧ s.fetch = .ok (wordOfBytes (s.mem.get s.pc.toNat) (s.mem.get (s.pc.toNat + 1)))) := by
  simp only [State.fetch, State.memRead]
  by_cases h1 : s.pc.toNat > 0xFFF
  · simp [h1]
  · by_cases h2 : s.pc.toNat + 1 > 0xFFF
    · have h3 : s.pc.toNat = 0xFFF := by omega
      simp [h3]
    · have h3 : s.pc.toNat ≤ 0xFFE := by omega
      simp [h1, h2, h3]

/-- Fetch depends on PC and MEM alone. -/
theorem State.fetch_congr {s t : State} (hpc : t.pc = s.pc) (hm : t.mem = s.mem) : t.fetch = s.fetch := by
  simp only [State.fetch, State.memRead, hpc, hm]

/-! ## Keys (45_keypad_timers_random.md R162) -/

theorem lowestKeyDown_eq_none (h : ∀ k : RegNum, keyDown s k = false) : lowestKeyDown s = none := by
  simp only [lowestKeyDown, List.findIdx?_eq_none_iff]
  intro b hb
  obtain ⟨k, hk, rfl⟩ := List.getElem_of_mem hb
  have hk' : k < 16 := by simpa using hk
  simpa [keyDown] using h ⟨k, hk'⟩

theorem lowestKeyDown_eq_some (k : RegNum) (hk : keyDown s k = true) (hlt : ∀ j : RegNum, j < k → keyDown s j = false) :
    lowestKeyDown s = some k.val := by
  rw [lowestKeyDown, List.findIdx?_eq_some_iff_getElem]
  refine ⟨by simp, by simpa [keyDown] using hk, fun j hj => ?_⟩
  have h16 : j < 16 := lt_trans hj k.isLt
  simpa [keyDown] using hlt ⟨j, h16⟩ (Fin.lt_def.2 hj)

/-- Either no key is down, or there is a least one. -/
theorem lowestKeyDown_cases :
    (lowestKeyDown s = none ∧ ∀ k : RegNum, keyDown s k = false) ∨
    ∃ k : RegNum, lowestKeyDown s = some k.val ∧ keyDown s k = true ∧ ∀ j : RegNum, j < k → keyDown s j = false := by
  cases h : lowestKeyDown s with
  | none =>
    refine .inl ⟨rfl, fun k => ?_⟩
    have := List.findIdx?_eq_none_iff.1 h s.keys[k.val] (by simp)
    simpa [keyDown] using this
  | some n =>
    obtain ⟨hn, h1, h2⟩ := List.findIdx?_eq_some_iff_getElem.1 h
    have hn' : n < 16 := by simpa using hn
    refine .inr ⟨⟨n, hn'⟩, rfl, by simpa [keyDown] using h1, fun j hj => ?_⟩
    simpa [keyDown] using h2 j.val (Fin.lt_def.1 hj)

/-! ## Pixels (10_state.md R31, 44_display.md R151, R152) -/

/-- Toggling a pixel on the screen changes that pixel and no other. -/
theorem Framebuffer.pixel_toggle (fb : Framebuffer) {y x : Nat} (hy : y < 32) (hx : x < 64) (py px : Nat) :
    (fb.toggle y x).pixel py px = (fb.pixel py px ^^ decide ((py, px) = (y, x))) := by
  simp only [Framebuffer.toggle, Framebuffer.pixel, hy, dite_true, Prod.mk.injEq]
  by_cases hpy : py < 32
  · simp only [hpy, dite_true, Vector.getElem_set]
    by_cases e : y = py
    · subst e
      simp only [if_true, BitVec.getLsbD_xor, BitVec.getLsbD_shiftLeft, BitVec.getLsbD_one, true_and]
      congr 1
      by_cases e2 : px = x
      · subst e2; simp [hx]
      · simp only [e2, decide_false]
        by_cases h3 : px < x
        · simp [h3]
        · have : px - x ≠ 0 := by omega
          simp [this]
    · simp [e, Ne.symm e]
  · have : ¬ py = y := by omega
    simp [hpy, this]

/-- Drawing a list of distinct pixels of the screen XORs exactly them, and collides when one of them was set. -/
theorem drawPixels_spec (ps : List (Nat × Nat)) (fb : Framebuffer) (c : Bool)
    (hin : ∀ p ∈ ps, p.1 < 32 ∧ p.2 < 64) (hnd : ps.Nodup) :
    (∀ py px, (drawPixels ps fb c).1.pixel py px = (fb.pixel py px ^^ decide ((py, px) ∈ ps))) ∧
    (drawPixels ps fb c).2 = (c || ps.any fun p => fb.pixel p.1 p.2) := by
  induction ps generalizing fb c with
  | nil => simp [drawPixels]
  | cons p ps ih =>
    have hp := hin p (by simp)
    obtain ⟨hnotin, hnd⟩ := List.nodup_cons.1 hnd
    obtain ⟨h1, h2⟩ := ih (fb.toggle p.1 p.2) (c || fb.pixel p.1 p.2) (fun q hq => hin q (by simp [hq])) hnd
    refine ⟨fun py px => ?_, ?_⟩
    · rw [drawPixels, h1, Framebuffer.pixel_toggle fb hp.1 hp.2]
      by_cases e : (py, px) = p
      · subst e; simp [hnotin]
      · simp [e]
    · have hany : (ps.any fun q => (fb.toggle p.1 p.2).pixel q.1 q.2) = ps.any fun q => fb.pixel q.1 q.2 := by
        rw [Bool.eq_iff_iff]
        simp only [List.any_eq_true]
        refine exists_congr fun q => and_congr_right fun hq => ?_
        have : ¬ (q.1, q.2) = (p.1, p.2) := fun e => hnotin (by rwa [← Prod.eta p, ← e, Prod.eta])
        rw [Framebuffer.pixel_toggle fb hp.1 hp.2]
        simp [this]
      rw [drawPixels, h2, hany, List.any_cons, Bool.or_assoc]

theorem spritePosition_eq_some (x0 y0 r c : Nat) (p : Nat × Nat) :
    spritePosition x0 y0 r c = some p ↔ p = (y0 + r, x0 + c) ∧ y0 + r < 32 ∧ x0 + c < 64 := by
  have h : spritePosition x0 y0 r c = if y0 + r > 31 then none else if x0 + c > 63 then none else some (y0 + r, x0 + c) := rfl
  rw [h]
  split
  · simp; omega
  · split
    · simp; omega
    · simp only [Option.some.injEq, eq_comm]
      constructor
      · rintro rfl; exact ⟨rfl, by omega, by omega⟩
      · exact fun h => h.1

/-- The pixels of one sprite row: on the screen, in the row, at a set bit. -/
theorem mem_rowPixels (x0 y0 r : Nat) (b : Byte) (py px : Nat) :
    (py, px) ∈ rowPixels x0 y0 r b ↔
      py = y0 + r ∧ py < 32 ∧ x0 ≤ px ∧ px < x0 + 8 ∧ px < 64 ∧ b.getLsbD (7 - (px - x0)) = true := by
  simp only [rowPixels, List.mem_filterMap, List.mem_range]
  constructor
  · rintro ⟨c, hc, h⟩
    split at h
    · obtain ⟨he, h1, h2⟩ := (spritePosition_eq_some ..).1 h
      obtain ⟨rfl, rfl⟩ := Prod.mk.inj he
      refine ⟨rfl, h1, by omega, by omega, h2, ?_⟩
      rwa [Nat.add_sub_cancel_left]
    · simp at h
  · rintro ⟨rfl, h1, h2, h3, h4, h5⟩
    refine ⟨px - x0, by omega, ?_⟩
    rw [if_pos h5, spritePosition_eq_some]
    exact ⟨by rw [Nat.add_sub_cancel' h2], h1, by omega⟩

theorem rowPixels_nodup (x0 y0 r : Nat) (b : Byte) : (rowPixels x0 y0 r b).Nodup := by
  refine List.Nodup.filterMap (fun c c' p h h' => ?_) List.nodup_range
  simp only [Option.mem_def] at h h'
  split at h <;> split at h' <;> try simp_all
  obtain ⟨h, -, -⟩ := (spritePosition_eq_some ..).1 h
  obtain ⟨h', -, -⟩ := (spritePosition_eq_some ..).1 h'
  have := (Prod.mk.inj (h.symm.trans h')).2
  omega

/-- The pixels a sprite draws: on the screen, inside the sprite, at a set bit. -/
theorem mem_spritePixels (x0 y0 r : Nat) (bs : List Byte) (py px : Nat) :
    (py, px) ∈ spritePixels x0 y0 r bs ↔
      y0 + r ≤ py ∧ py < y0 + r + bs.length ∧ py < 32 ∧ x0 ≤ px ∧ px < x0 + 8 ∧ px < 64 ∧
      (bs.getD (py - (y0 + r)) 0).getLsbD (7 - (px - x0)) = true := by
  induction bs generalizing r with
  | nil => simp [spritePixels]
  | cons b bs ih =>
    rw [spritePixels, List.mem_append, mem_rowPixels, ih]
    by_cases e : py = y0 + r
    · subst e
      simp
    · by_cases hlt : y0 + r < py
      · have e' : py - (y0 + r) = (py - (y0 + (r + 1))) + 1 := by omega
        rw [e', List.getD_cons_succ]
        simp only [List.length_cons]
        constructor
        · rintro (h | h)
          · exact absurd h.1 e
          · exact ⟨by omega, by omega, h.2.2⟩
        · exact fun h => .inr ⟨by omega, by omega, h.2.2⟩
      · constructor
        · rintro (h | h)
          · exact absurd h.1 e
          · omega
        · intro h; omega

/-- "Each pixel position is touched by at most one sprite bit per draw" (R153). -/
theorem spritePixels_nodup (x0 y0 r : Nat) (bs : List Byte) : (spritePixels x0 y0 r bs).Nodup := by
  induction bs generalizing r with
  | nil => exact .nil
  | cons b bs ih =>
    refine List.Nodup.append (rowPixels_nodup ..) (ih _) fun p h h' => ?_
    have h1 := (mem_rowPixels x0 y0 r b p.1 p.2).1 h
    have h2 := (mem_spritePixels x0 y0 (r + 1) bs p.1 p.2).1 h'
    omega

end Sys2Proof.Machine
end

