-- ==== Sys2Proof/Laws/PerInstr.lean ====
section
/-! SUPPORT. One lemma per instruction: its word matches the row of the opcode table that carries its mnemonic (spec
30_encoding.md R71, R76). -/

namespace Sys2Proof

/-! ## Masks over the three layouts -/

theorem and_append_eq {m n : Nat} (a c : BitVec m) (b d : BitVec n) : (a ++ b) &&& (c ++ d) = (a &&& c) ++ (b &&& d) :=
  BitVec.and_append

/-- A row that fixes `OP` alone, over format `A`. -/
theorem formatA_mask (op : Nibble) (nnn : Addr) : formatA op nnn &&& 0xF000#16 = op ++ 0#12 := by
  have h : (0xF000#16 : Word) = BitVec.allOnes 4 ++ 0#12 := by decide
  rw [h, formatA, and_append_eq, BitVec.and_allOnes, BitVec.and_zero]

/-- A row that fixes `OP` alone, over formats `XB` and `XF`. -/
theorem formatXB_mask (op : Nibble) (x : RegNum) (nn : Byte) : formatXB op x nn &&& 0xF000#16 = (op ++ 0#4) ++ 0#8 := by
  have h : (0xF000#16 : Word) = (BitVec.allOnes 4 ++ 0#4) ++ 0#8 := by decide
  rw [h, formatXB, and_append_eq, and_append_eq, BitVec.and_allOnes, BitVec.and_zero, BitVec.and_zero]

/-- A row that fixes `OP` and the low byte. -/
theorem formatXB_mask_function (op : Nibble) (x : RegNum) (nn : Byte) :
    formatXB op x nn &&& 0xF0FF#16 = (op ++ 0#4) ++ nn := by
  have h : (0xF0FF#16 : Word) = (BitVec.allOnes 4 ++ 0#4) ++ BitVec.allOnes 8 := by decide
  rw [h, formatXB, and_append_eq, and_append_eq, BitVec.and_allOnes, BitVec.and_zero, BitVec.and_allOnes]

/-- A row that fixes `OP` alone, over formats `XY` and `XYN`. -/
theorem formatXY_mask (op : Nibble) (x y : RegNum) (n : Nibble) :
    formatXY op x y n &&& 0xF000#16 = ((op ++ 0#4) ++ 0#4) ++ 0#4 := by
  have h : (0xF000#16 : Word) = ((BitVec.allOnes 4 ++ 0#4) ++ 0#4) ++ 0#4 := by decide
  rw [h, formatXY, and_append_eq, and_append_eq, and_append_eq, BitVec.and_allOnes, BitVec.and_zero, BitVec.and_zero,
    BitVec.and_zero]

/-- A row that fixes `OP` and the low nibble. -/
theorem formatXY_mask_function (op : Nibble) (x y : RegNum) (n : Nibble) :
    formatXY op x y n &&& 0xF00F#16 = ((op ++ 0#4) ++ 0#4) ++ n := by
  have h : (0xF00F#16 : Word) = ((BitVec.allOnes 4 ++ 0#4) ++ 0#4) ++ BitVec.allOnes 4 := by decide
  rw [h, formatXY, and_append_eq, and_append_eq, and_append_eq, BitVec.and_allOnes, BitVec.and_zero, BitVec.and_zero,
    BitVec.and_allOnes]

end Sys2Proof

namespace Sys2Proof.Laws

/-- The instruction's word matches the row of its mnemonic. -/
def RowMatch.Statement (i : Instr) : Prop :=
  ∃ r ∈ opcodeTable, r.mnemonic = i.mnemonic ∧ r.matchesWord (encode i) = true

theorem RowMatch.cls : RowMatch.Statement .cls :=
  ⟨⟨"CLS", 0x00E0, 0xFFFF⟩, by decide, rfl, rfl⟩

theorem RowMatch.ret : RowMatch.Statement .ret :=
  ⟨⟨"RET", 0x00EE, 0xFFFF⟩, by decide, rfl, rfl⟩

theorem RowMatch.jp (nnn : Addr) : RowMatch.Statement (.jp nnn) :=
  ⟨⟨"JP_NNN", 0x1000, 0xF000⟩, by decide, rfl, beq_iff_eq.mpr ((formatA_mask _ _).trans (by decide))⟩

theorem RowMatch.call (nnn : Addr) : RowMatch.Statement (.call nnn) :=
  ⟨⟨"CALL_NNN", 0x2000, 0xF000⟩, by decide, rfl, beq_iff_eq.mpr ((formatA_mask _ _).trans (by decide))⟩

theorem RowMatch.seVxNn (x : RegNum) (nn : Byte) : RowMatch.Statement (.seVxNn x nn) :=
  ⟨⟨"SE_Vx__NN", 0x3000, 0xF000⟩, by decide, rfl, beq_iff_eq.mpr ((formatXB_mask _ _ _).trans (by decide))⟩

theorem RowMatch.sneVxNn (x : RegNum) (nn : Byte) : RowMatch.Statement (.sneVxNn x nn) :=
  ⟨⟨"SNE_Vx__NN", 0x4000, 0xF000⟩, by decide, rfl, beq_iff_eq.mpr ((formatXB_mask _ _ _).trans (by decide))⟩

theorem RowMatch.seVxVy (x : RegNum) (y : RegNum) (n : Nibble) : RowMatch.Statement (.seVxVy x y n) :=
  ⟨⟨"SE_Vx__Vy", 0x5000, 0xF000⟩, by decide, rfl, beq_iff_eq.mpr ((formatXY_mask _ _ _ _).trans (by decide))⟩

theorem RowMatch.ldVxNn (x : RegNum) (nn : Byte) : RowMatch.Statement (.ldVxNn x nn) :=
  ⟨⟨"LD_Vx__NN", 0x6000, 0xF000⟩, by decide, rfl, beq_iff_eq.mpr ((formatXB_mask _ _ _).trans (by decide))⟩

theorem RowMatch.addVxNn (x : RegNum) (nn : Byte) : RowMatch.Statement (.addVxNn x nn) :=
  ⟨⟨"ADD_Vx__NN", 0x7000, 0xF000⟩, by decide, rfl, beq_iff_eq.mpr ((formatXB_mask _ _ _).trans (by decide))⟩

theorem RowMatch.ldVxVy (x : RegNum) (y : RegNum) : RowMatch.Statement (.ldVxVy x y) :=
  ⟨⟨"LD_Vx__Vy", 0x8000, 0xF00F⟩, by decide, rfl, beq_iff_eq.mpr ((formatXY_mask_function _ _ _ _).trans (by decide))⟩

theorem RowMatch.orVxVy (x : RegNum) (y : RegNum) : RowMatch.Statement (.orVxVy x y) :=
  ⟨⟨"OR_Vx__Vy", 0x8001, 0xF00F⟩, by decide, rfl, beq_iff_eq.mpr ((formatXY_mask_function _ _ _ _).trans (by decide))⟩

theorem RowMatch.andVxVy (x : RegNum) (y : RegNum) : RowMatch.Statement (.andVxVy x y) :=
  ⟨⟨"AND_Vx__Vy", 0x8002, 0xF00F⟩, by decide, rfl, beq_iff_eq.mpr ((formatXY_mask_function _ _ _ _).trans (by decide))⟩

theorem RowMatch.xorVxVy (x : RegNum) (y : RegNum) : RowMatch.Statement (.xorVxVy x y) :=
  ⟨⟨"XOR_Vx__Vy", 0x8003, 0xF00F⟩, by decide, rfl, beq_iff_eq.mpr ((formatXY_mask_function _ _ _ _).trans (by decide))⟩

theorem RowMatch.addVxVy (x : RegNum) (y : RegNum) : RowMatch.Statement (.addVxVy x y) :=
  ⟨⟨"ADD_Vx__Vy", 0x8004, 0xF00F⟩, by decide, rfl, beq_iff_eq.mpr ((formatXY_mask_function _ _ _ _).trans (by decide))⟩

theorem RowMatch.subVxVy (x : RegNum) (y : RegNum) : RowMatch.Statement (.subVxVy x y) :=
  ⟨⟨"SUB_Vx__Vy", 0x8005, 0xF00F⟩, by decide, rfl, beq_iff_eq.mpr ((formatXY_mask_function _ _ _ _).trans (by decide))⟩

theorem RowMatch.shrVx (x : RegNum) (y : RegNum) : RowMatch.Statement (.shrVx x y) :=
  ⟨⟨"SHR_Vx", 0x8006, 0xF00F⟩, by decide, rfl, beq_iff_eq.mpr ((formatXY_mask_function _ _ _ _).trans (by decide))⟩

theorem RowMatch.subnVxVy (x : RegNum) (y : RegNum) : RowMatch.Statement (.subnVxVy x y) :=
  ⟨⟨"SUBN_Vx__Vy", 0x8007, 0xF00F⟩, by decide, rfl, beq_iff_eq.mpr ((formatXY_mask_function _ _ _ _).trans (by decide))⟩

theorem RowMatch.shlVx (x : RegNum) (y : RegNum) : RowMatch.Statement (.shlVx x y) :=
  ⟨⟨"SHL_Vx", 0x800E, 0xF00F⟩, by decide, rfl, beq_iff_eq.mpr ((formatXY_mask_function _ _ _ _).trans (by decide))⟩

theorem RowMatch.sneVxVy (x : RegNum) (y : RegNum) (n : Nibble) : RowMatch.Statement (.sneVxVy x y n) :=
  ⟨⟨"SNE_Vx__Vy", 0x9000, 0xF000⟩, by decide, rfl, beq_iff_eq.mpr ((formatXY_mask _ _ _ _).trans (by decide))⟩

theorem RowMatch.ldI (nnn : Addr) : RowMatch.Statement (.ldI nnn) :=
  ⟨⟨"LD_I__NNN", 0xA000, 0xF000⟩, by decide, rfl, beq_iff_eq.mpr ((formatA_mask _ _).trans (by decide))⟩

theorem RowMatch.jpV0 (nnn : Addr) : RowMatch.Statement (.jpV0 nnn) :=
  ⟨⟨"JP_V0__NNN", 0xB000, 0xF000⟩, by decide, rfl, beq_iff_eq.mpr ((formatA_mask _ _).trans (by decide))⟩

theorem RowMatch.rnd (x : RegNum) (nn : Byte) : RowMatch.Statement (.rnd x nn) :=
  ⟨⟨"RND_Vx__NN", 0xC000, 0xF000⟩, by decide, rfl, beq_iff_eq.mpr ((formatXB_mask _ _ _).trans (by decide))⟩

theorem RowMatch.drw (x : RegNum) (y : RegNum) (n : Nat) : RowMatch.Statement (.drw x y n) :=
  ⟨⟨"DRW_Vx__Vy__N", 0xD000, 0xF000⟩, by decide, rfl, beq_iff_eq.mpr ((formatXY_mask _ _ _ _).trans (by decide))⟩

theorem RowMatch.skp (x : RegNum) : RowMatch.Statement (.skp x) :=
  ⟨⟨"SKP_Vx", 0xE09E, 0xF0FF⟩, by decide, rfl, beq_iff_eq.mpr ((formatXB_mask_function _ _ _).trans (by decide))⟩

theorem RowMatch.sknp (x : RegNum) : RowMatch.Statement (.sknp x) :=
  ⟨⟨"SKNP_Vx", 0xE0A1, 0xF0FF⟩, by decide, rfl, beq_iff_eq.mpr ((formatXB_mask_function _ _ _).trans (by decide))⟩

theorem RowMatch.ldVxDt (x : RegNum) : RowMatch.Statement (.ldVxDt x) :=
  ⟨⟨"LD_Vx__DT", 0xF007, 0xF0FF⟩, by decide, rfl, beq_iff_eq.mpr ((formatXB_mask_function _ _ _).trans (by decide))⟩

theorem RowMatch.ldVxK (x : RegNum) : RowMatch.Statement (.ldVxK x) :=
  ⟨⟨"LD_Vx__K", 0xF00A, 0xF0FF⟩, by decide, rfl, beq_iff_eq.mpr ((formatXB_mask_function _ _ _).trans (by decide))⟩

theorem RowMatch.ldDtVx (x : RegNum) : RowMatch.Statement (.ldDtVx x) :=
  ⟨⟨"LD_DT__Vx", 0xF015, 0xF0FF⟩, by decide, rfl, beq_iff_eq.mpr ((formatXB_mask_function _ _ _).trans (by decide))⟩

theorem RowMatch.ldStVx (x : RegNum) : RowMatch.Statement (.ldStVx x) :=
  ⟨⟨"LD_ST__Vx", 0xF018, 0xF0FF⟩, by decide, rfl, beq_iff_eq.mpr ((formatXB_mask_function _ _ _).trans (by decide))⟩

theorem RowMatch.addIVx (x : RegNum) : RowMatch.Statement (.addIVx x) :=
  ⟨⟨"ADD_I__Vx", 0xF01E, 0xF0FF⟩, by decide, rfl, beq_iff_eq.mpr ((formatXB_mask_function _ _ _).trans (by decide))⟩

theorem RowMatch.ldFVx (x : RegNum) : RowMatch.Statement (.ldFVx x) :=
  ⟨⟨"LD_F__Vx", 0xF029, 0xF0FF⟩, by decide, rfl, beq_iff_eq.mpr ((formatXB_mask_function _ _ _).trans (by decide))⟩

theorem RowMatch.ldBVx (x : RegNum) : RowMatch.Statement (.ldBVx x) :=
  ⟨⟨"LD_B__Vx", 0xF033, 0xF0FF⟩, by decide, rfl, beq_iff_eq.mpr ((formatXB_mask_function _ _ _).trans (by decide))⟩

theorem RowMatch.storeVx (x : RegNum) : RowMatch.Statement (.storeVx x) :=
  ⟨⟨"LD__I___Vx", 0xF055, 0xF0FF⟩, by decide, rfl, beq_iff_eq.mpr ((formatXB_mask_function _ _ _).trans (by decide))⟩

theorem RowMatch.loadVx (x : RegNum) : RowMatch.Statement (.loadVx x) :=
  ⟨⟨"LD_Vx___I", 0xF065, 0xF0FF⟩, by decide, rfl, beq_iff_eq.mpr ((formatXB_mask_function _ _ _).trans (by decide))⟩

end Sys2Proof.Laws
end

