-- ==== Sys2Proof/Laws/Step.lean ====
section
/-! SUPPORT. What a step can do, said once (spec 40_step_cycle.md R99), and what each meaning can do where it has more than one
outcome. -/

namespace Sys2Proof.Machine

/-- A step with a next state: ERR was clear, and the fetch failed, or the word was illegal, or the decoded instruction ran. -/
theorem step_cases {s t : State} (h : step s = .next t) :
    s.err = none ∧
    ((∃ c, s.fetch = .error c ∧ t = s.raise c) ∨
     (∃ w, s.fetch = .ok w ∧ decodeWord w = .error (.illegalOpcode w) ∧ t = s.raise (.illegalOpcode w)) ∨
     (∃ w i, s.fetch = .ok w ∧ decodeWord w = .ok i ∧ exec i s = .next t)) := by
  unfold step at h
  split at h
  · nomatch h
  · rename_i herr
    refine ⟨herr, ?_⟩
    split at h
    · rename_i c hc
      exact .inl ⟨c, hc, (Host.Outcome.next.inj h).symm⟩
    · rename_i w hw
      split at h
      · rename_i e he
        exact .inr (.inl ⟨w, hw, decodeWord_error he ▸ he, (Host.Outcome.next.inj h).symm⟩)
      · rename_i i hi
        exact .inr (.inr ⟨w, i, hw, hi, h⟩)

theorem step_of_error {s : State} {c : Cause} (herr : s.err = none) (hf : s.fetch = .error c) : step s = .next (s.raise c) := by
  simp [step, herr, hf]

theorem step_of_illegal {s : State} {w : Word} {e : DecodeError} (herr : s.err = none) (hf : s.fetch = .ok w)
    (hd : decodeWord w = .error e) : step s = .next (s.raise (.illegalOpcode w)) := by
  simp [step, herr, hf, hd]

theorem step_of_ok {s : State} {w : Word} {i : Instr} (herr : s.err = none) (hf : s.fetch = .ok w)
    (hd : decodeWord w = .ok i) : step s = exec i s := by
  simp [step, herr, hf, hd]

theorem step_of_latched {s : State} {r : ErrRecord} (herr : s.err = some r) : step s = .fault (.errLatched r) := by
  simp [step, herr]

/-! ## The `STEP` command (60_exceptions.md R186) -/

theorem stepCommand_of_latched {s : State} {r : ErrRecord} (herr : s.err = some r) (rnd : Byte) :
    s.stepCommand rnd = (s, .error r) := by
  simp only [State.stepCommand, herr]

theorem stepCommand_of_stall {s : State} (herr : s.err = none) (h : s.stalls = true) (rnd : Byte) :
    s.stepCommand rnd = (s, .halted) := by
  simp only [State.stepCommand, herr, h, if_true]

theorem stepCommand_of_next {s t : State} {rnd : Byte} (herr : s.err = none) (hs : s.stalls = false)
    (h : step (s.withRandIn [rnd]) = .next t) :
    s.stepCommand rnd = (t.withRandIn s.rndIn, match t.err with | some r => .error r | none => .ok) := by
  simp only [State.stepCommand, herr, hs, h]
  rfl

theorem stepCommand_of_fault {s : State} {f : Fault} {rnd : Byte} (herr : s.err = none) (hs : s.stalls = false)
    (h : step (s.withRandIn [rnd]) = .fault f) : s.stepCommand rnd = (s, .stuck f) := by
  simp only [State.stepCommand, herr, hs, h]
  rfl

/-! ## The meanings with more than one outcome -/

/-- CALL raises, pushes, or meets an SP that CORE never has (41_control_flow.md R101). -/
theorem execCall_cases (nnn : Addr) (s : State) :
    (s.sp = 16 ∧ execCall nnn s = .next (s.raise (.stackOverflow s.sp))) ∨
    (∃ h : s.sp.toNat < 16, execCall nnn s = .next ((s.push ⟨s.sp.toNat, h⟩ (s.pc + 2)).setPc (addrOperand nnn))) ∨
    (s.sp.toNat > 16 ∧ execCall nnn s = .fault (.stackPointerRange s.sp)) := by
  by_cases h : s.sp = 16
  · exact .inl ⟨h, if_pos h⟩
  · by_cases h2 : s.sp.toNat < 16
    · exact .inr (.inl ⟨h2, by simp only [execCall, if_neg h, dif_pos h2]; rfl⟩)
    · have : s.sp.toNat ≠ 16 := fun e => h (BitVec.eq_of_toNat_eq e)
      exact .inr (.inr ⟨by omega, by simp only [execCall, if_neg h, dif_neg h2]⟩)

/-- RET raises, pops, or meets an SP that CORE never has (41_control_flow.md R102). -/
theorem execRet_cases (s : State) :
    (s.sp = 0 ∧ execRet s = .next (s.raise (.stackUnderflow s.sp))) ∨
    (∃ h : s.sp.toNat - 1 < 16, s.sp ≠ 0 ∧ execRet s = .next (s.pop.setPc s.stack[s.sp.toNat - 1])) ∨
    (s.sp.toNat > 16 ∧ execRet s = .fault (.stackPointerRange s.sp)) := by
  by_cases h : s.sp = 0
  · exact .inl ⟨h, if_pos h⟩
  · by_cases h2 : s.sp.toNat - 1 < 16
    · exact .inr (.inl ⟨h2, h, by simp only [execRet, if_neg h, dif_pos h2]⟩)
    · exact .inr (.inr ⟨by omega, by simp only [execRet, if_neg h, dif_neg h2]⟩)

/-- LD B stores its digits or raises (43_index_memory.md R143). -/
theorem execLdBVx_cases (x : RegNum) (s : State) :
    (s.idx.toNat + 2 ≤ 0xFFF ∧
      execLdBVx x s = .next ((s.setPc (s.pc + 2)).setMem (s.mem.setBlock s.idx.toNat (bcdDigits (s.getV x))))) ∨
    (s.idx.toNat + 2 > 0xFFF ∧ execLdBVx x s = .next (s.raise (.memoryOutOfBounds (max s.idx.toNat 0x1000)))) := by
  rcases s.blockError_cases 3 with ⟨h, h'⟩ | ⟨h, h'⟩
  · exact .inl ⟨by omega, by simp only [execLdBVx, h]; rfl⟩
  · exact .inr ⟨by omega, by simp only [execLdBVx, h]⟩

/-- LD [I], Vx stores its registers or raises (43_index_memory.md R144). -/
theorem execStoreVx_cases (x : RegNum) (s : State) :
    (s.idx.toNat + x.val ≤ 0xFFF ∧
      execStoreVx x s = .next ((s.setPc (s.pc + 2)).setMem (s.mem.setBlock s.idx.toNat (registersThrough s x)))) ∨
    (s.idx.toNat + x.val > 0xFFF ∧ execStoreVx x s = .next (s.raise (.memoryOutOfBounds (max s.idx.toNat 0x1000)))) := by
  rcases s.blockError_cases (blockLength x) with ⟨h, h'⟩ | ⟨h, h'⟩
  · exact .inl ⟨by simp only [blockLength] at h'; omega, by simp only [execStoreVx, h]; rfl⟩
  · exact .inr ⟨by simp only [blockLength] at h'; omega, by simp only [execStoreVx, h]⟩

/-- LD Vx, [I] loads its registers or raises (43_index_memory.md R145). -/
theorem execLoadVx_cases (x : RegNum) (s : State) :
    (s.idx.toNat + x.val ≤ 0xFFF ∧
      execLoadVx x s = .next ((s.setPc (s.pc + 2)).setVs 0 (s.readBlock (x.val + 1)))) ∨
    (s.idx.toNat + x.val > 0xFFF ∧ execLoadVx x s = .next (s.raise (.memoryOutOfBounds (max s.idx.toNat 0x1000)))) := by
  rcases s.blockError_cases (blockLength x) with ⟨h, h'⟩ | ⟨h, h'⟩
  · exact .inl ⟨by simp only [blockLength] at h'; omega, by simp only [execLoadVx, h]; rfl⟩
  · exact .inr ⟨by simp only [blockLength] at h'; omega, by simp only [execLoadVx, h]⟩

/-- DRW draws or raises (44_display.md R151). -/
theorem execDrw_cases (x y : RegNum) (n : Nat) (s : State) :
    ((n = 0 ∨ s.idx.toNat + n - 1 ≤ 0xFFF) ∧
      execDrw x y n s = .next (((s.setPc (s.pc + 2)).setFb (drawSprite s x y n).1).setV vf (flagByte (drawSprite s x y n).2))) ∨
    (n > 0 ∧ s.idx.toNat + n - 1 > 0xFFF ∧
      execDrw x y n s = .next (s.raise (.memoryOutOfBounds (max s.idx.toNat 0x1000)))) := by
  rcases s.blockError_cases n with ⟨h, h'⟩ | ⟨h, h', h''⟩
  · exact .inl ⟨by omega, by simp only [execDrw, h]; rfl⟩
  · exact .inr ⟨by omega, by omega, by simp only [execDrw, h]⟩

/-- LD Vx, K stalls or stores the least key (45_keypad_timers_random.md R162). -/
theorem execLdVxK_cases (x : RegNum) (s : State) :
    ((∀ k : RegNum, keyDown s k = false) ∧ execLdVxK x s = .next s) ∨
    (∃ k : RegNum, keyDown s k = true ∧ (∀ j : RegNum, j < k → keyDown s j = false) ∧
      execLdVxK x s = .next ((s.setPc (s.pc + 2)).setV x (BitVec.ofNat 8 k.val))) := by
  rcases lowestKeyDown_cases s with ⟨h, h'⟩ | ⟨k, h, hk, hlt⟩
  · exact .inl ⟨h', by simp only [execLdVxK, h]⟩
  · exact .inr ⟨k, hk, hlt, by simp only [execLdVxK, h]; rfl⟩

/-! ## The memory of a state keeps its canonical form -/

/-- Reset memory lists nothing. -/
theorem State.reset_mem_wf (k : Vector Bool 16) : (State.resetWith k).mem.wf := Memory.wf_nil

/-- A block stored from I upwards inside the address space keeps the canonical form. -/
theorem State.writeBlock_mem_wf {s : State} (h : s.mem.wf) {bs : List Byte} (hb : s.idx.toNat + bs.length ≤ 0x1000) :
    (s.writeBlock bs).mem.wf :=
  Memory.wf_setBlock h hb

/-- A program that fits keeps the canonical form (70_reset_and_hazards.md R203). -/
theorem State.loadProgram_mem_wf {s : State} (h : s.mem.wf) {bs : List Byte} (hb : bs.length ≤ Config.progMax) :
    (s.loadProgram bs).mem.wf :=
  Memory.wf_setBlock h (by simp only [Config.progMax, Config.progBase] at *; omega)

/-- No instruction breaks the canonical form. -/
theorem exec_mem_wf {i : Instr} {s t : State} (h : s.mem.wf) (he : exec i s = .next t) : t.mem.wf := by
  cases i with
  | call nnn =>
    rcases execCall_cases nnn s with ⟨-, e⟩ | ⟨_, e⟩ | ⟨-, e⟩ <;> simp only [exec, e] at he
    · cases he; exact h
    · cases he; exact h
    · nomatch he
  | ret =>
    rcases execRet_cases s with ⟨-, e⟩ | ⟨_, -, e⟩ | ⟨-, e⟩ <;> simp only [exec, e] at he
    · cases he; exact h
    · cases he; exact h
    · nomatch he
  | ldBVx x =>
    rcases execLdBVx_cases x s with ⟨hb, e⟩ | ⟨-, e⟩ <;> simp only [exec, e] at he <;> cases he
    · exact Memory.wf_setBlock h (by simp only [bcdDigits, List.length_cons, List.length_nil]; omega)
    · exact h
  | storeVx x =>
    rcases execStoreVx_cases x s with ⟨hb, e⟩ | ⟨-, e⟩ <;> simp only [exec, e] at he <;> cases he
    · exact Memory.wf_setBlock h (by rw [registersThrough_length]; omega)
    · exact h
  | loadVx x =>
    rcases execLoadVx_cases x s with ⟨-, e⟩ | ⟨-, e⟩ <;> simp only [exec, e] at he <;> cases he
    · rw [State.setVs_frame]; exact h
    · exact h
  | drw x y n =>
    rcases execDrw_cases x y n s with ⟨-, e⟩ | ⟨-, -, e⟩ <;> simp only [exec, e] at he <;> cases he <;> exact h
  | ldVxK x =>
    rcases execLdVxK_cases x s with ⟨-, e⟩ | ⟨_, -, -, e⟩ <;> simp only [exec, e] at he <;> cases he <;> exact h
  | _ => cases he; exact h

/-! ## What a draw puts on the screen, and the errors of a meaning -/

theorem Framebuffer.blank_pixel (y x : Nat) : Framebuffer.blank.pixel y x = false := by
  simp only [Framebuffer.pixel, Framebuffer.blank]
  split <;> simp

/-- The pixels a draw toggles are the pixels of the screen with a set sprite bit (44_display.md R152). -/
theorem mem_drawn (s : State) (x y : RegNum) (n py px : Nat) :
    (py, px) ∈ spritePixels ((s.getV x).toNat % 64) ((s.getV y).toNat % 32) 0 (s.readBlock n) ↔
      py < 32 ∧ px < 64 ∧ spriteBitAt s x y n py px = true := by
  rw [mem_spritePixels]
  simp only [spriteBitAt, State.readBlock_length, Nat.add_zero, Bool.and_eq_true, decide_eq_true_eq]
  constructor
  · rintro ⟨a, b, c, d, e, f, g⟩
    rw [State.readBlock_getD _ (by omega)] at g
    exact ⟨c, f, ⟨a, b, d, e⟩, g⟩
  · rintro ⟨c, f, ⟨a, b, d, e⟩, g⟩
    exact ⟨a, b, c, d, e, f, by rw [State.readBlock_getD _ (by omega)]; exact g⟩

/-- What a draw leaves on the screen, and when it collides (44_display.md R151). -/
theorem drawSprite_spec (s : State) (x y : RegNum) (n : Nat) :
    (∀ py px, (drawSprite s x y n).1.pixel py px =
      (s.fb.pixel py px ^^ decide (py < 32 ∧ px < 64 ∧ spriteBitAt s x y n py px = true))) ∧
    ((drawSprite s x y n).2 = true ↔
      ∃ py px, py < 32 ∧ px < 64 ∧ s.pixel py px = true ∧ spriteBitAt s x y n py px = true) := by
  have hs := drawPixels_spec (spritePixels ((s.getV x).toNat % 64) ((s.getV y).toNat % 32) 0 (s.readBlock n)) s.fb false
    (fun p hp => by have := (mem_drawn s x y n p.1 p.2).1 hp; exact ⟨this.1, this.2.1⟩) (spritePixels_nodup ..)
  refine ⟨fun py px => ?_, ?_⟩
  · rw [drawSprite, hs.1]
    congr 1
    exact decide_eq_decide.2 (mem_drawn ..)
  · rw [drawSprite, hs.2, Bool.false_or, List.any_eq_true]
    constructor
    · rintro ⟨p, hp, h⟩
      have := (mem_drawn s x y n p.1 p.2).1 hp
      exact ⟨p.1, p.2, this.1, this.2.1, h, this.2.2⟩
    · rintro ⟨py, px, a, b, c, d⟩
      exact ⟨(py, px), (mem_drawn s x y n py px).2 ⟨a, b, d⟩, c⟩

/-- A meaning leaves ERR alone, or raises and changes nothing else (60_exceptions.md R174). -/
theorem exec_err_cases {i : Instr} {s t : State} (he : exec i s = .next t) : t.err = s.err ∨ ∃ c, t = s.raise c := by
  cases i with
  | call nnn =>
    rcases execCall_cases nnn s with ⟨-, e⟩ | ⟨_, e⟩ | ⟨-, e⟩ <;> simp only [exec, e] at he
    · cases he; exact .inr ⟨_, rfl⟩
    · cases he; exact .inl rfl
    · nomatch he
  | ret =>
    rcases execRet_cases s with ⟨-, e⟩ | ⟨_, -, e⟩ | ⟨-, e⟩ <;> simp only [exec, e] at he
    · cases he; exact .inr ⟨_, rfl⟩
    · cases he; exact .inl rfl
    · nomatch he
  | ldBVx x =>
    rcases execLdBVx_cases x s with ⟨-, e⟩ | ⟨-, e⟩ <;> simp only [exec, e] at he <;> cases he
    · exact .inl rfl
    · exact .inr ⟨_, rfl⟩
  | storeVx x =>
    rcases execStoreVx_cases x s with ⟨-, e⟩ | ⟨-, e⟩ <;> simp only [exec, e] at he <;> cases he
    · exact .inl rfl
    · exact .inr ⟨_, rfl⟩
  | loadVx x =>
    rcases execLoadVx_cases x s with ⟨-, e⟩ | ⟨-, e⟩ <;> simp only [exec, e] at he <;> cases he
    · rw [State.setVs_frame]; exact .inl rfl
    · exact .inr ⟨_, rfl⟩
  | drw x y n =>
    rcases execDrw_cases x y n s with ⟨-, e⟩ | ⟨-, -, e⟩ <;> simp only [exec, e] at he <;> cases he
    · exact .inl rfl
    · exact .inr ⟨_, rfl⟩
  | ldVxK x =>
    rcases execLdVxK_cases x s with ⟨-, e⟩ | ⟨_, -, -, e⟩ <;> simp only [exec, e] at he <;> cases he <;> exact .inl rfl
  | _ => cases he; exact .inl rfl

end Sys2Proof.Machine
end

