-- ==== Sys2Proof/Tests/Slice0.lean ====
section
/-! SUPPORT. The model's own tests. Words are written out bit by bit from the encodings of spec 30_encoding.md R71 and R76;
expected results are those of spec 95_test_vectors.md (the part is named at each group) or of the examples of the instruction's
own rule. A vector is one step from the state after reset with the word at 0x200. The last part shows, for every statement with
hypotheses, values that meet them. -/

namespace Sys2Proof.Tests

open Sys2Proof.Machine

/-- The state after reset with the word `w` where the next step fetches it. -/
def placed (w : Nat) : State := State.reset.withFetchWord 16 w

/-- The next state of an outcome. -/
def nextOf : Host.Outcome State Fault Refusal → Option State
  | .next t => some t
  | _ => none

/-- What `f` gives on the state after one step. -/
def after {α : Type} (s : State) (f : State → α) : Option α := (nextOf (step s)).map f

/-- The error record after one step. -/
def errorAfter (s : State) : Option (Option ErrRecord) := after s State.err

/-- Bytes put into MEM. -/
def withBytes (s : State) (a : Nat) (bs : List Byte) : State := s.setMem (s.mem.setBlock a bs)

/-- Pixels of an otherwise clear display. -/
def withPixels (s : State) (ps : List (Nat × Nat)) : State := s.setFb (drawPixels ps Framebuffer.blank false).1

/-- `SP` and one stack entry. -/
def withStack (s : State) (sp : Byte) (k : RegNum) (a : Word) : State := { s with sp := sp, stack := s.stack.set k.val a k.isLt }

/-! ## Well-formedness -/

theorem test_wellFormed_refuses_sixteen_rows : (Instr.drw 1 2 16).wellFormed = false := by decide

theorem test_wellFormed_accepts_fifteen_rows : (Instr.drw 1 2 15).wellFormed = true := by decide

/-! ## Decoding: one word of each row, bit by bit -/

theorem test_decode_group_0 :
    decodeWord 0b0000000011100000#16 = .ok .cls ∧ decodeWord 0b0000000011101110#16 = .ok .ret := ⟨rfl, rfl⟩

theorem test_decode_address_format :
    decodeWord 0b0001001000110100#16 = .ok (.jp 0x234) ∧ decodeWord 0b0010111100001010#16 = .ok (.call 0xF0A) ∧
    decodeWord 0b1010001100000001#16 = .ok (.ldI 0x301) ∧ decodeWord 0b1011001011111110#16 = .ok (.jpV0 0x2FE) := ⟨rfl, rfl, rfl, rfl⟩

theorem test_decode_register_byte_format :
    decodeWord 0b0011000110100101#16 = .ok (.seVxNn 1 0xA5) ∧ decodeWord 0b0100001000010001#16 = .ok (.sneVxNn 2 0x11) ∧
    decodeWord 0b0110101000101100#16 = .ok (.ldVxNn 10 0x2C) ∧ decodeWord 0b0111000111111111#16 = .ok (.addVxNn 1 0xFF) ∧
    decodeWord 0b1100001100001111#16 = .ok (.rnd 3 0x0F) := ⟨rfl, rfl, rfl, rfl, rfl⟩

theorem test_decode_two_register_skips :
    decodeWord 0b0101001101000000#16 = .ok (.seVxVy 3 4 0) ∧ decodeWord 0b0101001101000111#16 = .ok (.seVxVy 3 4 7) ∧
    decodeWord 0b1001001101001111#16 = .ok (.sneVxVy 3 4 15) := ⟨rfl, rfl, rfl⟩

theorem test_decode_group_8 :
    decodeWord 0b1000000100100000#16 = .ok (.ldVxVy 1 2) ∧ decodeWord 0b1000000100100001#16 = .ok (.orVxVy 1 2) ∧
    decodeWord 0b1000000100100010#16 = .ok (.andVxVy 1 2) ∧ decodeWord 0b1000000100100011#16 = .ok (.xorVxVy 1 2) ∧
    decodeWord 0b1000000100100100#16 = .ok (.addVxVy 1 2) ∧ decodeWord 0b1000000100100101#16 = .ok (.subVxVy 1 2) ∧
    decodeWord 0b1000000100100110#16 = .ok (.shrVx 1 2) ∧ decodeWord 0b1000000100100111#16 = .ok (.subnVxVy 1 2) ∧
    decodeWord 0b1000000100101110#16 = .ok (.shlVx 1 2) := ⟨rfl, rfl, rfl, rfl, rfl, rfl, rfl, rfl, rfl⟩

theorem test_decode_draw : decodeWord 0b1101000100100101#16 = .ok (.drw 1 2 5) := rfl

theorem test_decode_group_E :
    decodeWord 0b1110010010011110#16 = .ok (.skp 4) ∧ decodeWord 0b1110010010100001#16 = .ok (.sknp 4) := ⟨rfl, rfl⟩

theorem test_decode_group_F :
    decodeWord 0b1111010000000111#16 = .ok (.ldVxDt 4) ∧ decodeWord 0b1111001100001010#16 = .ok (.ldVxK 3) ∧
    decodeWord 0b1111001100010101#16 = .ok (.ldDtVx 3) ∧ decodeWord 0b1111010100011000#16 = .ok (.ldStVx 5) ∧
    decodeWord 0b1111001000011110#16 = .ok (.addIVx 2) ∧ decodeWord 0b1111000000101001#16 = .ok (.ldFVx 0) ∧
    decodeWord 0b1111000000110011#16 = .ok (.ldBVx 0) ∧ decodeWord 0b1111000101010101#16 = .ok (.storeVx 1) ∧
    decodeWord 0b1111001001100101#16 = .ok (.loadVx 2) := ⟨rfl, rfl, rfl, rfl, rfl, rfl, rfl, rfl, rfl⟩

/-- 95_test_vectors.md 2.1: the illegal words listed there. -/
theorem test_decode_refuses_the_illegal_words_of_2_1 :
    [0x0000#16, 0x00E1, 0x00FD, 0x0123, 0x01E0, 0x8128, 0x812F, 0xE100, 0xE19F, 0xF000, 0xF100, 0xF130, 0xF075, 0xFFFF].map
      decodeWord =
    [0x0000#16, 0x00E1, 0x00FD, 0x0123, 0x01E0, 0x8128, 0x812F, 0xE100, 0xE19F, 0xF000, 0xF100, 0xF130, 0xF075, 0xFFFF].map
      (fun w => .error (.illegalOpcode w)) := rfl

theorem test_decode_bytes_is_big_endian :
    decodeBytes [0x12, 0x34, 0x56] = .ok (.jp 0x234, [0x56]) ∧ decodeBytes [0x12] = .error .truncated := by decide

theorem test_decode_table_word : decodeTableWord 16 0x8124 = some (.addVxVy 1 2) ∧ decodeTableWord 16 0xE000 = none := by decide

theorem test_encode_lays_out_the_fields :
    encode (.drw 1 2 5) = 0b1101000100100101#16 ∧ encode (.call 0x20A) = 0b0010001000001010#16 ∧
    encodeBytes (.storeVx 1) = [0xF1, 0x55] := by decide

theorem test_mnemonics_are_the_tables : (opcodeTable.map OpcodeRow.mnemonic).Nodup := by decide

/-! ## The step (95_test_vectors.md 2.1) -/

theorem test_step_without_a_program : errorAfter State.reset = some (some ⟨.illegalOpcode 0x0000, 0x200⟩) := by decide

theorem test_step_at_the_last_address : errorAfter (State.reset.setPc 0xFFF) = some (some ⟨.memoryOutOfBounds 0x1000, 0xFFF⟩) := by
  decide

theorem test_step_above_the_last_address :
    errorAfter (State.reset.setPc 0x1000) = some (some ⟨.memoryOutOfBounds 0x1000, 0x1000⟩) ∧
    errorAfter (State.reset.setPc 0x10FE) = some (some ⟨.memoryOutOfBounds 0x10FE, 0x10FE⟩) := by decide

theorem test_step_at_the_last_slot :
    after (withBytes (State.reset.setPc 0xFFE) 0xFFE [0x60, 0x01]) (fun t => (t.getV 0, t.pc)) = some (1, 0x1000) := by decide

theorem test_step_at_an_odd_address :
    after (withBytes (State.reset.setPc 0x201) 0x201 [0x61, 0x07]) (fun t => (t.getV 1, t.pc)) = some (7, 0x203) := by decide

theorem test_skip_from_the_last_slot :
    after (withBytes (State.reset.setPc 0xFFE) 0xFFE [0x31, 0x00]) State.pc = some 0x1002 := by decide

/-! ## Control flow (95_test_vectors.md 2.2) -/

theorem test_jp : after (placed 0x1234) State.pc = some 0x234 ∧ step (placed 0x1200) = .next (placed 0x1200) := by
  exact ⟨by decide, rfl⟩

theorem test_call :
    after (placed 0x2300) (fun t => (t.pc, t.sp, t.stack[0])) = some (0x300, 1, 0x202) ∧
    after (withStack (placed 0x2300) 15 0 0) (fun t => (t.pc, t.sp, t.stack[15])) = some (0x300, 16, 0x202) := by decide

theorem test_call_with_a_full_stack :
    after (withStack (placed 0x2300) 16 0 0) (fun t => (t.err, t.sp, t.pc)) = some (some ⟨.stackOverflow 16, 0x200⟩, 16, 0x200) := by
  decide

theorem test_ret :
    after (withStack (placed 0x00EE) 1 0 0x456) (fun t => (t.pc, t.sp, t.stack[0])) = some (0x456, 0, 0x456) := by decide

theorem test_ret_with_an_empty_stack : errorAfter (placed 0x00EE) = some (some ⟨.stackUnderflow 0, 0x200⟩) := by decide

theorem test_jpV0 :
    after ((placed 0xB2FE).setV 0 0x02 |>.setV 2 0x50) State.pc = some 0x300 ∧
    after ((placed 0xBFFF).setV 0 0xFF) State.pc = some 0x10FE := by decide

theorem test_seVxNn : after (placed 0x3100) State.pc = some 0x204 ∧ after ((placed 0x3100).setV 1 1) State.pc = some 0x202 := by
  decide

theorem test_sneVxNn :
    after ((placed 0x4210).setV 2 0x10) State.pc = some 0x202 ∧ after ((placed 0x4211).setV 2 0x10) State.pc = some 0x204 := by decide

theorem test_seVxVy :
    after ((placed 0x5347).setV 3 7 |>.setV 4 7) State.pc = some 0x204 ∧
    after ((placed 0x5340).setV 3 7 |>.setV 4 8) State.pc = some 0x202 := by decide

theorem test_sneVxVy :
    after ((placed 0x9340).setV 3 1 |>.setV 4 2) State.pc = some 0x204 ∧
    after ((placed 0x934F).setV 3 2 |>.setV 4 2) State.pc = some 0x202 := by decide

/-! ## Arithmetic and logic (95_test_vectors.md 2.3) -/

theorem test_ldVxNn : after (placed 0x6A2C) (fun t => (t.getV 10, t.pc)) = some (0x2C, 0x202) := by decide

theorem test_addVxNn :
    after ((placed 0x7101).setV 1 0xFF |>.setV vf 1) (fun t => (t.getV 1, t.getV vf)) = some (0, 1) ∧
    after ((placed 0x7F01).setV vf 0xFF) (fun t => t.getV vf) = some 0 := by decide

theorem test_ldVxVy : after ((placed 0x8120).setV 2 0x9C) (fun t => (t.getV 1, t.getV 2)) = some (0x9C, 0x9C) := by decide

theorem test_orVxVy :
    after ((placed 0x8121).setV 1 0x0F |>.setV 2 0xF0 |>.setV vf 1) (fun t => (t.getV 1, t.getV vf)) = some (0xFF, 1) := by decide

theorem test_andVxVy :
    after ((placed 0x8122).setV 1 0x3C |>.setV 2 0x0F |>.setV vf 1) (fun t => (t.getV 1, t.getV vf)) = some (0x0C, 1) := by decide

theorem test_xorVxVy :
    after ((placed 0x8123).setV 1 0xFF |>.setV 2 0x0F |>.setV vf 1) (fun t => (t.getV 1, t.getV vf)) = some (0xF0, 1) := by decide

theorem test_addVxVy :
    after ((placed 0x8124).setV 1 0xFF |>.setV 2 0x01) (fun t => (t.getV 1, t.getV vf)) = some (0x00, 1) ∧
    after ((placed 0x8124).setV 1 0x7F |>.setV 2 0x01 |>.setV vf 1) (fun t => (t.getV 1, t.getV vf)) = some (0x80, 0) := by decide

theorem test_addVxVy_to_the_flag_register : after ((placed 0x8F14).setV vf 0xF0 |>.setV 1 0x20) (fun t => t.getV vf) = some 1 := by
  decide

theorem test_subVxVy :
    after ((placed 0x8125).setV 1 1 |>.setV 2 2 |>.setV vf 1) (fun t => (t.getV 1, t.getV vf)) = some (0xFF, 0) ∧
    after ((placed 0x8125).setV 1 5 |>.setV 2 5) (fun t => (t.getV 1, t.getV vf)) = some (0, 1) := by decide

theorem test_subVxVy_from_the_flag_register : after ((placed 0x8F15).setV vf 3 |>.setV 1 5) (fun t => t.getV vf) = some 0 := by decide

theorem test_subnVxVy :
    after ((placed 0x8127).setV 1 2 |>.setV 2 1 |>.setV vf 1) (fun t => (t.getV 1, t.getV vf)) = some (0xFF, 0) ∧
    after ((placed 0x8127).setV 1 0 |>.setV 2 0xFF) (fun t => (t.getV 1, t.getV vf)) = some (0xFF, 1) := by decide

theorem test_shrVx :
    after ((placed 0x8126).setV 1 0x81 |>.setV 2 0xAA) (fun t => (t.getV 1, t.getV 2, t.getV vf)) = some (0x40, 0xAA, 1) ∧
    after ((placed 0x8F06).setV vf 2) (fun t => t.getV vf) = some 0 := by decide

theorem test_shlVx :
    after ((placed 0x812E).setV 1 0x81 |>.setV 2 0xAA) (fun t => (t.getV 1, t.getV 2, t.getV vf)) = some (0x02, 0xAA, 1) ∧
    after ((placed 0x8F0E).setV vf 0x7F) (fun t => t.getV vf) = some 0 := by decide

/-! ## Index and memory (95_test_vectors.md 2.4) -/

theorem test_ldI : after (placed 0xAFFF) State.idx = some 0x0FFF := by decide

theorem test_addIVx :
    after ((placed 0xF21E).setIdx 0x0FFF |>.setV 2 1) (fun t => (t.idx, t.getV vf)) = some (0x1000, 0) ∧
    after ((placed 0xF21E).setIdx 0xFFFF |>.setV 2 2) State.idx = some 0x0001 := by decide

theorem test_ldFVx :
    after ((placed 0xF029).setV 0 0x1A) State.idx = some 0x0082 ∧ after ((placed 0xF029).setV 0 0x0F) State.idx = some 0x009B := by
  decide

theorem test_ldBVx :
    after ((placed 0xF033).setV 0 0x9C |>.setIdx 0x300) (fun t => (t.mem.get 0x300, t.mem.get 0x301, t.mem.get 0x302, t.idx)) =
      some (1, 5, 6, 0x300) := by decide

theorem test_ldBVx_past_the_end :
    after ((placed 0xF033).setV 0 0x7B |>.setIdx 0xFFE) (fun t => (t.err, t.mem.get 0xFFE, t.pc)) =
      some (some ⟨.memoryOutOfBounds 0x1000, 0x200⟩, 0, 0x200) := by decide

theorem test_storeVx :
    after ((placed 0xF155).setIdx 0x300 |>.setV 0 0x11 |>.setV 1 0x22 |>.setV 2 0x33)
      (fun t => (t.mem.get 0x300, t.mem.get 0x301, t.mem.get 0x302, t.idx)) = some (0x11, 0x22, 0, 0x300) := by decide

theorem test_storeVx_past_the_end :
    after ((placed 0xF155).setIdx 0xFFF |>.setV 0 0x11) (fun t => (t.err, t.mem.get 0xFFF)) =
      some (some ⟨.memoryOutOfBounds 0x1000, 0x200⟩, 0) := by decide

theorem test_loadVx :
    after (withBytes ((placed 0xF265).setIdx 0x300 |>.setV 3 0xEE) 0x300 [1, 5, 6, 7])
      (fun t => (t.getV 0, t.getV 1, t.getV 2, t.getV 3)) = some (1, 5, 6, 0xEE) := by decide

theorem test_loadVx_past_the_end :
    after ((placed 0xF265).setIdx 0xFFE |>.setV 0 0x77) (fun t => (t.err, t.getV 0)) =
      some (some ⟨.memoryOutOfBounds 0x1000, 0x200⟩, 0x77) := by decide

/-! ## Display (95_test_vectors.md 2.5) -/

theorem test_cls :
    after ((withPixels (placed 0x00E0) [(5, 5)]).setV vf 1) (fun t => (t.pixel 5 5, t.getV vf, t.pc)) = some (false, 1, 0x202) := by
  decide

/-- The example of 44_display.md R151: glyph 5 at the bottom right corner. -/
theorem test_drw_clips_at_the_corner :
    after ((placed 0xD125).setIdx 0x69 |>.setV 1 62 |>.setV 2 30)
      (fun t => ([(30, 62), (30, 63), (31, 62), (31, 63), (0, 62), (30, 0)].map fun p => t.pixel p.1 p.2, t.getV vf)) =
      some ([true, true, true, false, false, false], 0) := by decide

theorem test_drw_reports_a_collision :
    after (withPixels (withBytes ((placed 0xD121).setIdx 0x300) 0x300 [0xF0]) [(0, 3), (0, 10)])
      (fun t => ([0, 1, 2, 3, 4, 10].map fun x => t.pixel 0 x, t.getV vf)) = some ([true, true, true, false, false, true], 1) := by
  decide

/-! ## Keypad, timers, random (95_test_vectors.md 2.6) -/

theorem test_skp :
    after (((placed 0xE49E).setV 4 0x1A).keyWrite 10 true) State.pc = some 0x204 ∧
    after ((placed 0xE49E).setV 4 7) State.pc = some 0x202 := by decide

theorem test_sknp :
    after (((placed 0xE4A1).setV 4 7).keyWrite 7 true) State.pc = some 0x202 ∧
    after ((placed 0xE4A1).setV 4 7) State.pc = some 0x204 := by decide

theorem test_ldVxK_waits :
    step ((placed 0xF30A).setV 3 0x55) = .next ((placed 0xF30A).setV 3 0x55) ∧
    ((placed 0xF30A).command (.step 0)).2 = .halted := by exact ⟨rfl, by decide⟩

theorem test_ldVxK_takes_the_least_key :
    after (((placed 0xF30A).keyWrite 9 true).keyWrite 7 true) (fun t => (t.getV 3, t.pc, keyDown t 7)) = some (7, 0x202, true) := by
  decide

theorem test_ldVxDt : after ((placed 0xF407).setDt 4) (fun t => t.getV 4) = some 4 := by decide

theorem test_ldDtVx : after ((placed 0xF315).setV 3 7) State.dt = some 7 := by decide

theorem test_ldStVx : after ((placed 0xF518).setV 5 2) (fun t => (t.st, t.sound)) = some (2, true) := by decide

theorem test_rnd :
    ((placed 0xC30F).command (.step 0xA7)).1.getV 3 = 7 ∧ ((placed 0xC300).setV 3 9 |>.command (.step 0xFF)).1.getV 3 = 0 := by decide

/-! ## Reset, load, tick, keys (95_test_vectors.md S7, 2.1, 2.6, 2.7) -/

theorem test_reset_memory :
    [0x000, 0x04F, 0x050, 0x051, 0x054, 0x09B, 0x09F, 0x0A0, 0x200].map State.reset.mem.get =
      [0, 0, 0xF0, 0x90, 0xF0, 0xF0, 0x80, 0, 0] := by decide

theorem test_reset_memory_is_canonical : State.reset.mem.wf := by decide

theorem test_reset_command_clears_the_error_and_keeps_the_keys :
    let s := ((State.reset.raise (.illegalOpcode 0)).keyWrite 3 true).setDt 5
    (s.command .reset).1 = State.reset.keyWrite 3 true ∧ (s.command .tick).1.dt = 5 := by decide

theorem test_load :
    let t := (State.reset.command (.load [0x12, 0x34, 0x56])).1
    t.fetch = .ok 0x1234 ∧ t.mem.get 0x202 = 0x56 ∧ t.mem.get 0x203 = 0 := by decide

theorem test_tick :
    let s := ((State.reset.setDt 3).setSt 1).tick
    (s.dt, s.st, s.sound) = (2, 0, false) ∧ (s.tick.dt, s.tick.st) = (1, 0) := by decide

/-! ## The placing of an instruction -/

theorem test_withFetchWord_runs_next : after (State.reset.withFetchWord 16 0x6A2C) (fun t => t.getV 10) = some 0x2C := by decide

theorem test_withFetchWord_moves_a_pc_without_room :
    after (((State.reset.setPc 0xFFF).raise (.illegalOpcode 0)).withFetchWord 16 0x6A2C) (fun t => (t.getV 10, t.pc)) =
      some (0x2C, 0x202) := by decide

/-! ## Witnesses: values that meet the hypotheses of each statement, each clause at a boundary of its range -/

/-- The next state of an instruction, and what `f` says of it. -/
def runs (i : Instr) (s : State) (f : State → Bool) : Bool := ((nextOf (exec i s)).map f).getD false

/-- ERR is clear. -/
def fine (s : State) : Bool := s.err.isNone

/-- ERR is set. -/
def failed (s : State) : Bool := s.err.isSome

/-- The outcome of a command. -/
def answer (s : State) (c : Command) : Response := (s.command c).2

theorem test_witness_DecodeOfEncodeIsTheInstruction : (Instr.drw 15 0 15).wellFormed = true := by decide

theorem test_witness_EncodeOfDecodeIsTheWord : decodeWord 0xDF0F = .ok (.drw 15 0 15) ∧ decodeWord 0x00E0 = .ok .cls := ⟨rfl, rfl⟩

theorem test_witness_DecodeFollowsTheOpcodeTable :
    (⟨"SHL_Vx", 0x800E, 0xF00F⟩ : OpcodeRow) ∈ opcodeTable ∧ (⟨"SHL_Vx", 0x800E, 0xF00F⟩ : OpcodeRow).matchesWord 0x8FFE = true := by
  decide

/-- The first and last words of each illegal group. -/
theorem test_witness_IllegalWordsAreExactlyTheListed :
    [0x0000#16, 0x0FFF, 0x8008, 0x8FFF, 0xE000, 0xEFFF, 0xF000, 0xFFFF].map listedIllegal = List.replicate 8 true ∧
    (placed 0x8FFF).err = none ∧ (placed 0x8FFF).fetch = .ok 0x8FFF := ⟨rfl, rfl, rfl⟩

theorem test_witness_legal_neighbours_are_not_listed :
    [0x00E0#16, 0x00EE, 0x1000, 0x7FFF, 0x8007, 0x800E, 0xDFFF, 0xE09E, 0xEFA1, 0xF007, 0xFF65].map listedIllegal =
      List.replicate 11 false := rfl

theorem test_witness_StepRunsTheDecodedInstruction :
    let s := withBytes (State.reset.setPc 0xFFE) 0xFFE [0x60, 0x01]
    s.err = none ∧ s.pc.toNat ≤ 0xFFE ∧ decodeWord (wordOfBytes (s.mem.get s.pc.toNat) (s.mem.get (s.pc.toNat + 1))) = .ok (.ldVxNn 0 1) :=
  ⟨rfl, by decide, rfl⟩

theorem test_witness_FetchIsBigEndianAndRangeChecked :
    State.reset.err = none ∧ (State.reset.setPc 0xFFE).pc.toNat ≤ 0xFFE ∧ (State.reset.setPc 0xFFF).pc.toNat = 0xFFF ∧
    (State.reset.setPc 0x1000).pc.toNat > 0xFFF := by decide

theorem test_witness_LatchedErrorStopsEveryStep :
    (State.reset.raise (.illegalOpcode 0)).err = some ⟨.illegalOpcode 0, 0x200⟩ ∧ Command.tick ≠ .reset := by decide

theorem test_witness_FailingStepChangesOnlyErr :
    errorAfter State.reset ≠ none ∧ errorAfter State.reset ≠ some none ∧ State.reset.err = none ∧
    answer State.reset (.step 0) = .error ⟨.illegalOpcode 0, 0x200⟩ := by decide

theorem test_witness_ErrorsRaisedByEachPart :
    (State.reset.setPc 0xFFF).pc.toNat > 0xFFE ∧ (withStack State.reset 16 0 0).sp.toNat ≤ 16 ∧ (withStack State.reset 16 0 0).err = none ∧
    raisedAtExecute (.call 0) (withStack State.reset 16 0 0) = some (.stackOverflow 16) ∧
    raisedAtExecute (.drw 0 0 1) (State.reset.setIdx 0x1000) = some (.memoryOutOfBounds 0x1000) ∧
    raisedAtExecute (.drw 0 0 1) (State.reset.setIdx 0xFFF) = none := by decide

/-- A record with each cause a step can raise; the two ranges of an address. -/
theorem test_witness_ErrorRecordContents :
    errorAfter State.reset = some (some ⟨.illegalOpcode 0, 0x200⟩) ∧
    errorAfter (State.reset.setPc 0xFFFF) = some (some ⟨.memoryOutOfBounds 0xFFFF, 0xFFFF⟩) ∧
    errorAfter ((placed 0xF033).setIdx 0xFFE) = some (some ⟨.memoryOutOfBounds 0x1000, 0x200⟩) ∧
    errorAfter (withStack (placed 0x2300) 16 0 0) = some (some ⟨.stackOverflow 16, 0x200⟩) ∧
    errorAfter (placed 0x00EE) = some (some ⟨.stackUnderflow 0, 0x200⟩) ∧
    ((placed 0x00EE).command (.step 0)).1.err = some ⟨.stackUnderflow 0, 0x200⟩ := by decide

theorem test_witness_PcAfterEveryInstruction :
    State.reset.err = none ∧ runs (.jpV0 0xFFF) (State.reset.setV 0 0xFF) fine = true ∧ runs .ret State.reset failed = true ∧
    (State.reset.setPc 0xFFE).pc.toNat ≤ 0xFFE := by decide

theorem test_witness_StepIsTotal : (withStack State.reset 16 0 0).err = none ∧ (withStack State.reset 16 0 0).sp.toNat ≤ 16 := by decide

theorem test_witness_RandomByteReachesOnlyRnd : ∀ x nn, (placed 0x00E0).nextInstr ≠ some (.rnd x nn) := by
  have h : (placed 0x00E0).nextInstr = some .cls := rfl
  intro x nn
  rw [h]
  nofun

/-- The four frames over all instructions: an instruction outside each list, and a store with a stack effect of its own. -/
theorem test_witness_frames :
    runs (.addVxVy 1 2) State.reset fine = true ∧ (5 : RegNum) ∉ destinations (.addVxVy 1 2) ∧
    runs (.loadVx 4) State.reset fine = true ∧ (5 : RegNum) ∉ destinations (.loadVx 4) ∧ (4 : RegNum) ∈ destinations (.loadVx 4) ∧
    runs (.ldVxK 15) State.reset fine = true ∧ runs (.storeVx 15) (State.reset.setIdx 0xFF0) fine = true := by decide

/-- Every flag writer completes, and a draw with a collision and one without. -/
theorem test_witness_FlagWritersAndTheirFlags :
    runs (.addVxVy 15 15) State.reset fine = true ∧ runs (.subVxVy 15 1) State.reset fine = true ∧
    runs (.subnVxVy 1 15) State.reset fine = true ∧ runs (.shrVx 15 0) State.reset fine = true ∧
    runs (.shlVx 15 0) State.reset fine = true ∧
    runs (.drw 0 0 1) ((withPixels State.reset [(0, 0)]).setIdx 0x50) (fun t => fine t && !t.pixel 0 0) = true ∧
    runs (.drw 0 0 1) ((withPixels State.reset [(0, 7)]).setIdx 0x50) (fun t => fine t && t.pixel 0 7) = true ∧
    vf ∉ destinations (.addVxNn 1 2) := by decide

theorem test_witness_CallPushesTheReturnAddress :
    (withStack State.reset 15 0 0).sp.toNat < 16 ∧ (withStack State.reset 16 0 0).sp = 16 := by decide

theorem test_witness_ReturnPopsTheReturnAddress :
    (withStack State.reset 16 15 0x1000).sp.toNat - 1 < 16 ∧ (withStack State.reset 16 15 0x1000).sp ≠ 0 ∧
    (withStack State.reset 1 0 0x202).sp ≠ 0 ∧ State.reset.sp = 0 := by decide

theorem test_witness_ReturnComesBackAfterCall :
    let s := withStack State.reset 15 0 0
    s.sp.toNat < 16 ∧ runs (.call 0x300) s (fun t => decide ((t.setPc 0x400).sp = t.sp ∧ (t.setPc 0x400).stack = t.stack)) = true := by
  decide

theorem test_witness_KeySkipsTestTheLowNibble :
    (15 : RegNum).val = ((State.reset.setV 4 0x1F).getV 4).toNat % 16 ∧ (0 : RegNum).val = ((State.reset.setV 4 0xF0).getV 4).toNat % 16 := by
  decide

theorem test_witness_JumpToItselfIsAFixedPoint : (placed 0x1200).err = none ∧ (placed 0x1200).atEnd := ⟨rfl, 0x200, rfl, rfl⟩

theorem test_witness_BcdStoreWritesThreeDigits :
    State.reset.mem.wf ∧ (State.reset.setIdx 0xFFD).idx.toNat + 2 ≤ 0xFFF ∧ (State.reset.setIdx 0xFFE).idx.toNat + 2 > 0xFFF := by decide

theorem test_witness_BlockStoreWritesRegisters :
    State.reset.mem.wf ∧ (State.reset.setIdx 0xFF0).idx.toNat + (15 : RegNum).val ≤ 0xFFF ∧
    (State.reset.setIdx 0xFF1).idx.toNat + (15 : RegNum).val > 0xFFF ∧ (0 : RegNum) ≤ 15 := by decide

theorem test_witness_BlockLoadReadsRegisters :
    (State.reset.setIdx 0xFFF).idx.toNat + (0 : RegNum).val ≤ 0xFFF ∧ (State.reset.setIdx 0xFFF).idx.toNat + (1 : RegNum).val > 0xFFF := by
  decide

theorem test_witness_BlockLoadAfterStoreRestores :
    State.reset.mem.wf ∧ State.reset.err = none ∧ runs (.storeVx 15) ((State.reset.setIdx 0xFF0).setV 3 7) fine = true ∧
    (15 : RegNum) ≤ 15 := by decide

theorem test_witness_LowestBadAddressIsReported :
    (∃ a ∈ dataAddresses (.drw 0 0 2) (State.reset.setIdx 0xFFF), a > 0xFFF) ∧
    (∃ a ∈ dataAddresses (.ldBVx 0) (State.reset.setIdx 0xFFFF), a > 0xFFF) ∧ State.reset.err = none ∧
    (∃ a ∈ [(State.reset.setPc 0xFFF).pc.toNat, (State.reset.setPc 0xFFF).pc.toNat + 1], a > 0xFFF) := by decide

theorem test_witness_StoredBytesAreFetchedNext :
    let s := (State.reset.setPc 0xFFC).setIdx 0xFFE
    s.mem.wf ∧ s.err = none ∧ s.idx = s.pc + 2 ∧ s.pc.toNat ≤ 0xFFC ∧ 1 ≤ (1 : RegNum).val ∧ runs (.storeVx 1) s fine = true := by decide

theorem test_witness_MemoriesThatReadAlikeAreEqual : Memory.wf [(0, 1), (0x50, 2), (0xFFF, 3)] := by decide

/-- No row read at any I; the last row at the last address; a row past it; a collision and none. -/
theorem test_witness_DrawXorsTheSprite :
    (State.reset.setIdx 0xFFE).idx.toNat + 2 - 1 ≤ 0xFFF ∧ (State.reset.setIdx 0xFFF).idx.toNat + 2 - 1 > 0xFFF ∧
    runs (.drw 0 0 0) (State.reset.setIdx 0xFFFF) fine = true ∧
    (withPixels State.reset [(31, 63)]).pixel 31 63 = true ∧
    spriteBitAt ((State.reset.setIdx 0x50).setV 1 63 |>.setV 2 31) 1 2 1 31 63 = true ∧
    spriteBitAt ((State.reset.setIdx 0x50).setV 1 63 |>.setV 2 31) 1 2 1 31 62 = false := by decide

theorem test_witness_SecondDrawRestoresTheScreen :
    let s := (State.reset.setIdx 0x50).setV 1 63
    s.err = none ∧ runs (.drw 1 0 5) s (fun t => fine t && runs (.drw 1 0 5) (s.setFb t.fb) fine) = true := by decide

theorem test_witness_WaitForKeyStallsOrStoresTheLeastKey :
    (∀ k : RegNum, State.reset.keys[k.val] = false) ∧ (placed 0xF30A).err = none ∧ (placed 0xF30A).nextInstr = some (.ldVxK 3) ∧
    ((placed 0xF30A).keyWrite 15 true).keys[15] = true ∧
    (∀ j : RegNum, j < 15 → ((placed 0xF30A).keyWrite 15 true).keys[j.val] = false) := by decide

theorem test_witness_RandomByteIsMasked : (State.reset.withRandIn [0xA7]).rndIn = 0xA7 :: [] := by decide

theorem test_witness_StepMasksTheByteOnTheRandomInput :
    (placed 0xCF00).err = none ∧ (placed 0xCF00).nextInstr = some (.rnd 15 0x00) ∧ (placed 0xC3FF).nextInstr = some (.rnd 3 0xFF) :=
  ⟨rfl, rfl, rfl⟩

theorem test_witness_LoadCopiesTheProgram :
    State.reset.mem.wf ∧ State.reset.err = none ∧ (List.replicate 3584 (0xAA : Byte)).length ≤ 3584 ∧
    (List.replicate 3585 (0xAA : Byte)).length > 3584 ∧ (State.reset.raise (.illegalOpcode 0)).err ≠ none :=
  ⟨by decide, by decide, List.length_replicate.le, by rw [List.length_replicate]; omega, by decide⟩

theorem test_witness_TickCountsTheTimersDown :
    (State.reset.setDt 1).err = none ∧ (State.reset.raise (.illegalOpcode 0)).err ≠ none := by decide

theorem test_witness_ResetThenLoadIsReproducible : (List.replicate 3584 (0xAA : Byte)).length ≤ 3584 :=
  List.length_replicate.le

/-- A state that meets the invariant at the ends of its ranges, with a next step. -/
theorem test_witness_EveryStepKeepsTheInvariant :
    let s := withStack (withBytes (State.reset.setPc 0xFFE) 0xFFE [0xBF, 0xFF]) 16 15 0x1000
    s.Inv ∧ (nextOf (step s)).isSome = true :=
  ⟨⟨by decide, by decide, by decide, by decide, nofun⟩, by decide⟩

end Sys2Proof.Tests
end

section
/-! The state after `RESET`, element by element (10_state.md R37, 70_reset_and_hazards.md R200), and O48. -/

namespace Sys2Proof.Machine

/-! ## What `RESET` leaves in each element -/

section
variable (s : State)

@[simp] theorem State.command_reset : s.command .reset = (s.resetCommand, .ok) := rfl

@[simp] theorem State.resetCommand_v : s.resetCommand.v = Vector.replicate 16 0 := rfl
@[simp] theorem State.resetCommand_idx : s.resetCommand.idx = 0 := rfl
@[simp] theorem State.resetCommand_pc : s.resetCommand.pc = 0x200 := rfl
@[simp] theorem State.resetCommand_sp : s.resetCommand.sp = 0 := rfl
@[simp] theorem State.resetCommand_stack : s.resetCommand.stack = Vector.replicate 16 0 := rfl
@[simp] theorem State.resetCommand_dt : s.resetCommand.dt = 0 := rfl
@[simp] theorem State.resetCommand_st : s.resetCommand.st = 0 := rfl
@[simp] theorem State.resetCommand_keys : s.resetCommand.keys = s.keys := rfl
@[simp] theorem State.resetCommand_fb : s.resetCommand.fb = Framebuffer.blank := rfl
@[simp] theorem State.resetCommand_mem : s.resetCommand.mem = [] := rfl
@[simp] theorem State.resetCommand_err : s.resetCommand.err = none := rfl
@[simp] theorem State.resetCommand_rndIn : s.resetCommand.rndIn = s.rndIn := rfl
@[simp] theorem State.resetCommand_rndUsed : s.resetCommand.rndUsed = s.rndUsed := rfl

@[simp] theorem State.resetCommand_getV (r : RegNum) : s.resetCommand.getV r = 0 := by
  simp only [State.getV, State.resetCommand_v, Vector.getElem_replicate]

@[simp] theorem State.resetCommand_pixel (y x : Nat) : s.resetCommand.pixel y x = false :=
  Framebuffer.blank_pixel y x

@[simp] theorem State.resetCommand_sound : s.resetCommand.sound = false := rfl

end

/-! ## The reset contents of MEM (20_memory.md R59) -/

@[simp] theorem Memory.get_nil (a : Nat) : Memory.get [] a = resetByte a := rfl

theorem resetByte_outside_font {a : Nat} (h : a < 0x050 ∨ 0x0A0 ≤ a) : resetByte a = 0 := by
  have hout : ¬ (Params.fontBase ≤ a ∧ a < Params.fontBase + 80) := by
    simp only [Params.fontBase]
    omega
  rw [resetByte, if_neg]
  simpa [Params.fontInstall] using hout

/-- The 16 glyphs stand one after another from `FONT_BASE` upwards. -/
theorem resetByte_font_area :
    (List.range 80).map (fun k => resetByte (0x050 + k)) = fontGlyphs.flatten := by decide

/-! ## The obligation -/

/-- Settles O48: `RESET` answers `State.resetCommand`, whose elements are given above; MEM is the empty list, so each byte is its
reset contents, and the font area is the glyph table. -/
theorem resetSetsEveryElement : Obligations.ResetSetsEveryElement := by
  intro s
  refine ⟨s.resetCommand, s.command_reset, s.resetCommand_getV, s.resetCommand_idx, s.resetCommand_pc, s.resetCommand_sp,
    ?stack, s.resetCommand_dt, s.resetCommand_st, s.resetCommand_sound, s.resetCommand_pixel, ?zero, ?font,
    s.resetCommand_keys, s.resetCommand_err⟩
  case stack =>
    intro k
    simp only [State.resetCommand_stack, Vector.getElem_replicate]
  case zero =>
    intro a ha
    simpa using resetByte_outside_font ha
  case font =>
    have himage := congrArg (List.map BitVec.toNat) resetByte_font_area
    rw [List.map_map] at himage
    exact himage

end Sys2Proof.Machine
end

section
/-! The range check of every access to MEM (20_memory.md R57, 43_index_memory.md R146), and O39. -/

namespace Sys2Proof.Machine

/-! ## The addresses of an access are consecutive -/

/-- The number of bytes an instruction accesses as data, from I upwards (20_memory.md R53). -/
def dataLength (i : Instr) : Nat :=
  match i with
  | .drw _ _ n => n
  | .ldBVx _ => 3
  | .storeVx x | .loadVx x => blockLength x
  | _ => 0

theorem mem_dataAddresses (i : Instr) (s : State) (a : Nat) :
    a ∈ dataAddresses i s ↔ s.idx.toNat ≤ a ∧ a < s.idx.toNat + dataLength i := by
  have hrange (n : Nat) :
      a ∈ (List.range n).map (s.idx.toNat + ·) ↔ s.idx.toNat ≤ a ∧ a < s.idx.toNat + n := by
    rw [← List.range'_eq_map_range, List.mem_range'_1]
  cases i with
  | drw _ _ n => exact hrange n
  | storeVx x | loadVx x => exact hrange (blockLength x)
  | ldBVx _ =>
    simp only [dataAddresses, dataLength, List.mem_cons, List.not_mem_nil, or_false]
    omega
  | _ =>
    simp only [dataAddresses, dataLength, List.not_mem_nil, false_iff]
    omega

theorem mem_fetchAddresses (s : State) (a : Nat) :
    a ∈ [s.pc.toNat, s.pc.toNat + 1] ↔ s.pc.toNat ≤ a ∧ a < s.pc.toNat + 2 := by
  simp only [List.mem_cons, List.not_mem_nil, or_false]
  omega

/-- Where the addresses are the `n` from `base` upwards and one is above 0xFFF, the lowest such one is `max base 0x1000` (R146). -/
theorem max_is_lowest_above {l : List Nat} {base n : Nat} (hl : ∀ a, a ∈ l ↔ base ≤ a ∧ a < base + n)
    (h : ∃ a ∈ l, a > 0xFFF) :
    max base 0x1000 ∈ l ∧ max base 0x1000 > 0xFFF ∧ ∀ b ∈ l, b > 0xFFF → max base 0x1000 ≤ b := by
  obtain ⟨a, ha, habove⟩ := h
  obtain ⟨hlow, hhigh⟩ := (hl a).1 ha
  refine ⟨(hl _).2 (by omega), by omega, fun b hb hb' => ?_⟩
  obtain ⟨hbase, -⟩ := (hl b).1 hb
  omega

/-! ## An access out of range raises -/

/-- An instruction whose block check fails raises that error and does nothing else. -/
theorem exec_of_blockError {i : Instr} {s : State} {c : Cause} (h : s.blockError (dataLength i) = some c) :
    exec i s = .next (s.raise c) := by
  cases i with
  | drw | ldBVx | storeVx | loadVx =>
    simp only [dataLength] at h
    simp only [exec, execDrw, execLdBVx, execStoreVx, execLoadVx, h]
  | _ => nomatch (s.blockError_eq_none (.inl rfl)).symm.trans h

theorem exec_of_dataAddress_above {i : Instr} {s : State} (h : ∃ a ∈ dataAddresses i s, a > 0xFFF) :
    exec i s = .next (s.raise (.memoryOutOfBounds (max s.idx.toNat 0x1000))) := by
  obtain ⟨a, ha, habove⟩ := h
  obtain ⟨hlow, hhigh⟩ := (mem_dataAddresses i s a).1 ha
  exact exec_of_blockError (s.blockError_eq_some (by omega) (by omega))

theorem State.fetch_of_address_above {s : State} (h : ∃ a ∈ [s.pc.toNat, s.pc.toNat + 1], a > 0xFFF) :
    s.fetch = .error (.memoryOutOfBounds (max s.pc.toNat 0x1000)) := by
  obtain ⟨a, ha, habove⟩ := h
  obtain ⟨-, hhigh⟩ := (mem_fetchAddresses s a).1 ha
  rcases s.fetch_cases with ⟨hpc, hf⟩ | ⟨hpc, hf⟩ | ⟨hpc, -⟩
  · rw [hf, Nat.max_eq_left hpc]
  · rw [hf, hpc]
    rfl
  · omega

/-! ## The obligation -/

/-- Settles O39: the data addresses and the fetch's are consecutive, and the error names the maximum of the first one and 0x1000. -/
theorem lowestBadAddressIsReported : Obligations.LowestBadAddressIsReported := by
  refine ⟨fun i s h => ?data, fun s herr h => ?fetch⟩
  case data =>
    obtain ⟨hmem, habove, hleast⟩ := max_is_lowest_above (mem_dataAddresses i s) h
    exact ⟨_, hmem, habove, hleast, exec_of_dataAddress_above h⟩
  case fetch =>
    obtain ⟨hmem, habove, hleast⟩ := max_is_lowest_above (mem_fetchAddresses s) h
    exact ⟨_, hmem, habove, hleast, step_of_error herr (State.fetch_of_address_above h)⟩

end Sys2Proof.Machine
end

section
/-! The decoder group by group (30_encoding.md R73, R74): which words it takes, and that the encoder gives such a word back. -/

namespace Sys2Proof

/-! ## The decoder on each primary group -/

/-- A conditional whose first branch is an instruction gives one exactly when its condition holds or its other branch does. -/
theorem exists_ok_ite {c : Prop} [Decidable c] {j : Instr} {b : Except DecodeError Instr} :
    (∃ i, (if c then .ok j else b) = .ok i) ↔ c ∨ ∃ i, b = .ok i := by
  by_cases h : c <;> simp [h]

section
variable {w : Word}

theorem decodeWord_of_op_0 (h : fieldOp w = 0x0#4) : decodeWord w = decodeGroup0 w := by
  rw [decodeWord, h]
  rfl

theorem decodeWord_of_op_8 (h : fieldOp w = 0x8#4) : decodeWord w = decodeGroup8 w := by
  rw [decodeWord, h]
  rfl

theorem decodeWord_of_op_E (h : fieldOp w = 0xE#4) : decodeWord w = decodeGroupE w := by
  rw [decodeWord, h]
  rfl

theorem decodeWord_of_op_F (h : fieldOp w = 0xF#4) : decodeWord w = decodeGroupF w := by
  rw [decodeWord, h]
  rfl

/-- The twelve groups without a secondary dispatch hold no illegal word (R74). -/
theorem decodeWord_ok_of_op (h0 : fieldOp w ≠ 0x0#4) (h8 : fieldOp w ≠ 0x8#4) (hE : fieldOp w ≠ 0xE#4)
    (hF : fieldOp w ≠ 0xF#4) : ∃ i, decodeWord w = .ok i := by
  have hop : ∀ op : Nibble, op ≠ 0x0#4 → op ≠ 0x8#4 → op ≠ 0xE#4 → op ≠ 0xF#4 →
      op ∈ [0x1#4, 0x2#4, 0x3#4, 0x4#4, 0x5#4, 0x6#4, 0x7#4, 0x9#4, 0xA#4, 0xB#4, 0xC#4, 0xD#4] := by decide
  have hw := hop _ h0 h8 hE hF
  simp only [List.mem_cons, List.not_mem_nil, or_false] at hw
  simp only [decodeWord, if_neg h0, if_neg h8, if_neg hE, exists_ok_ite]
  simp only [← or_assoc] at hw ⊢
  exact .inl hw

end

/-! ## The legal words (R74, R78) -/

/-- The words of group 0x0 that are instructions. -/
def group0Words : List Word := [0x00E0, 0x00EE]

/-- The low nibbles that group 0x8 dispatches on. -/
def group8Functions : List Nibble := [0x0, 0x1, 0x2, 0x3, 0x4, 0x5, 0x6, 0x7, 0xE]

/-- The low bytes that group 0xE dispatches on. -/
def groupEFunctions : List Byte := [0x9E, 0xA1]

/-- The low bytes that group 0xF dispatches on. -/
def groupFFunctions : List Byte := [0x07, 0x0A, 0x15, 0x18, 0x1E, 0x29, 0x33, 0x55, 0x65]

/-- What the secondary dispatch of its group asks of a word; the other twelve groups ask nothing. -/
structure LegalWord (w : Word) : Prop where
  group0 : fieldOp w = 0x0#4 → w ∈ group0Words
  group8 : fieldOp w = 0x8#4 → fieldN w ∈ group8Functions
  groupE : fieldOp w = 0xE#4 → fieldNn w ∈ groupEFunctions
  groupF : fieldOp w = 0xF#4 → fieldNn w ∈ groupFFunctions

theorem decodeGroup0_ok_iff (w : Word) : (∃ i, decodeGroup0 w = .ok i) ↔ w ∈ group0Words := by
  simp [decodeGroup0, exists_ok_ite, group0Words]

theorem decodeGroup8_ok_iff (w : Word) : (∃ i, decodeGroup8 w = .ok i) ↔ fieldN w ∈ group8Functions := by
  simp [decodeGroup8, exists_ok_ite, group8Functions]

theorem decodeGroupE_ok_iff (w : Word) : (∃ i, decodeGroupE w = .ok i) ↔ fieldNn w ∈ groupEFunctions := by
  simp [decodeGroupE, exists_ok_ite, groupEFunctions]

theorem decodeGroupF_ok_iff (w : Word) : (∃ i, decodeGroupF w = .ok i) ↔ fieldNn w ∈ groupFFunctions := by
  simp [decodeGroupF, exists_ok_ite, groupFFunctions]

theorem decodeWord_ok_iff (w : Word) : (∃ i, decodeWord w = .ok i) ↔ LegalWord w := by
  constructor
  · intro h
    exact ⟨fun hop => (decodeGroup0_ok_iff w).1 (decodeWord_of_op_0 hop ▸ h),
      fun hop => (decodeGroup8_ok_iff w).1 (decodeWord_of_op_8 hop ▸ h),
      fun hop => (decodeGroupE_ok_iff w).1 (decodeWord_of_op_E hop ▸ h),
      fun hop => (decodeGroupF_ok_iff w).1 (decodeWord_of_op_F hop ▸ h)⟩
  · intro h
    by_cases h0 : fieldOp w = 0x0#4
    · exact decodeWord_of_op_0 h0 ▸ (decodeGroup0_ok_iff w).2 (h.group0 h0)
    by_cases h8 : fieldOp w = 0x8#4
    · exact decodeWord_of_op_8 h8 ▸ (decodeGroup8_ok_iff w).2 (h.group8 h8)
    by_cases hE : fieldOp w = 0xE#4
    · exact decodeWord_of_op_E hE ▸ (decodeGroupE_ok_iff w).2 (h.groupE hE)
    by_cases hF : fieldOp w = 0xF#4
    · exact decodeWord_of_op_F hF ▸ (decodeGroupF_ok_iff w).2 (h.groupF hF)
    exact decodeWord_ok_of_op h0 h8 hE hF

/-! ## The encoder gives the decoded word back (R71, R76) -/

section
variable {w : Word} {i : Instr}

theorem formatA_of_op {op : Nibble} (h : fieldOp w = op) : formatA op (fieldNnn w) = w :=
  h ▸ formatA_fields w

theorem formatXB_of_op {op : Nibble} (h : fieldOp w = op) : formatXB op (fieldX w) (fieldNn w) = w :=
  h ▸ formatXB_fields w

theorem formatXB_of_function {op : Nibble} {nn : Byte} (h : fieldOp w = op) (hn : fieldNn w = nn) :
    formatXB op (fieldX w) nn = w :=
  hn ▸ formatXB_of_op h

theorem formatXY_of_op {op : Nibble} (h : fieldOp w = op) : formatXY op (fieldX w) (fieldY w) (fieldN w) = w :=
  h ▸ formatXY_fields w

theorem formatXY_of_function {op n : Nibble} (h : fieldOp w = op) (hn : fieldN w = n) :
    formatXY op (fieldX w) (fieldY w) n = w :=
  hn ▸ formatXY_of_op h

theorem encode_drw_of_op (h : fieldOp w = 0xD#4) : encode (.drw (fieldX w) (fieldY w) (fieldN w).toNat) = w := by
  rw [encode, BitVec.ofNat_toNat, BitVec.setWidth_eq]
  exact formatXY_of_op h

/-- A conditional decodes to the word's instruction where each of its branches does, under its condition. -/
theorem encode_of_ite {c : Prop} [Decidable c] {a b : Except DecodeError Instr} (ha : c → a = .ok i → encode i = w)
    (hb : ¬ c → b = .ok i → encode i = w) (h : (if c then a else b) = .ok i) : encode i = w := by
  by_cases hc : c
  · exact ha hc ((if_pos hc).symm.trans h)
  · exact hb hc ((if_neg hc).symm.trans h)

theorem encode_of_ok {j : Instr} (hj : encode j = w) (h : (.ok j : Except DecodeError Instr) = .ok i) : encode i = w :=
  Except.ok.inj h ▸ hj

theorem encode_of_decodeGroup0 : decodeGroup0 w = .ok i → encode i = w := by
  unfold decodeGroup0
  repeat refine encode_of_ite (fun hw => encode_of_ok hw.symm) fun _ => ?_
  exact nofun

theorem encode_of_decodeGroup8 (hop : fieldOp w = 0x8#4) : decodeGroup8 w = .ok i → encode i = w := by
  unfold decodeGroup8
  repeat refine encode_of_ite (fun hn => encode_of_ok (formatXY_of_function hop hn)) fun _ => ?_
  exact nofun

theorem encode_of_decodeGroupE (hop : fieldOp w = 0xE#4) : decodeGroupE w = .ok i → encode i = w := by
  unfold decodeGroupE
  repeat refine encode_of_ite (fun hn => encode_of_ok (formatXB_of_function hop hn)) fun _ => ?_
  exact nofun

theorem encode_of_decodeGroupF (hop : fieldOp w = 0xF#4) : decodeGroupF w = .ok i → encode i = w := by
  unfold decodeGroupF
  repeat refine encode_of_ite (fun hn => encode_of_ok (formatXB_of_function hop hn)) fun _ => ?_
  exact nofun

/-- One line per group of R73, in the order of the dispatch: the layout of the group puts the decoded fields back. -/
theorem encode_of_decodeWord : decodeWord w = .ok i → encode i = w := by
  unfold decodeWord
  refine encode_of_ite (fun _ => encode_of_decodeGroup0) fun h0 => ?_
  refine encode_of_ite (fun hop => encode_of_ok (formatA_of_op hop)) fun h1 => ?_
  refine encode_of_ite (fun hop => encode_of_ok (formatA_of_op hop)) fun h2 => ?_
  refine encode_of_ite (fun hop => encode_of_ok (formatXB_of_op hop)) fun h3 => ?_
  refine encode_of_ite (fun hop => encode_of_ok (formatXB_of_op hop)) fun h4 => ?_
  refine encode_of_ite (fun hop => encode_of_ok (formatXY_of_op hop)) fun h5 => ?_
  refine encode_of_ite (fun hop => encode_of_ok (formatXB_of_op hop)) fun h6 => ?_
  refine encode_of_ite (fun hop => encode_of_ok (formatXB_of_op hop)) fun h7 => ?_
  refine encode_of_ite encode_of_decodeGroup8 fun h8 => ?_
  refine encode_of_ite (fun hop => encode_of_ok (formatXY_of_op hop)) fun h9 => ?_
  refine encode_of_ite (fun hop => encode_of_ok (formatA_of_op hop)) fun hA => ?_
  refine encode_of_ite (fun hop => encode_of_ok (formatA_of_op hop)) fun hB => ?_
  refine encode_of_ite (fun hop => encode_of_ok (formatXB_of_op hop)) fun hC => ?_
  refine encode_of_ite (fun hop => encode_of_ok (encode_drw_of_op hop)) fun hD => ?_
  refine encode_of_ite encode_of_decodeGroupE fun hE => ?_
  exact encode_of_decodeGroupF (by bv_omega)

end

end Sys2Proof
end

section
/-! The opcode table as data (30_encoding.md R76) and the decoder's agreement with it: O3. -/

namespace Sys2Proof

/-- Every instruction's word matches the row of its mnemonic (R71, R76). -/
theorem encode_matches_row : ∀ i : Instr, Laws.RowMatch.Statement i
  | .cls => Laws.RowMatch.cls
  | .ret => Laws.RowMatch.ret
  | .jp nnn => Laws.RowMatch.jp nnn
  | .call nnn => Laws.RowMatch.call nnn
  | .seVxNn x nn => Laws.RowMatch.seVxNn x nn
  | .sneVxNn x nn => Laws.RowMatch.sneVxNn x nn
  | .seVxVy x y n => Laws.RowMatch.seVxVy x y n
  | .ldVxNn x nn => Laws.RowMatch.ldVxNn x nn
  | .addVxNn x nn => Laws.RowMatch.addVxNn x nn
  | .ldVxVy x y => Laws.RowMatch.ldVxVy x y
  | .orVxVy x y => Laws.RowMatch.orVxVy x y
  | .andVxVy x y => Laws.RowMatch.andVxVy x y
  | .xorVxVy x y => Laws.RowMatch.xorVxVy x y
  | .addVxVy x y => Laws.RowMatch.addVxVy x y
  | .subVxVy x y => Laws.RowMatch.subVxVy x y
  | .shrVx x y => Laws.RowMatch.shrVx x y
  | .subnVxVy x y => Laws.RowMatch.subnVxVy x y
  | .shlVx x y => Laws.RowMatch.shlVx x y
  | .sneVxVy x y n => Laws.RowMatch.sneVxVy x y n
  | .ldI nnn => Laws.RowMatch.ldI nnn
  | .jpV0 nnn => Laws.RowMatch.jpV0 nnn
  | .rnd x nn => Laws.RowMatch.rnd x nn
  | .drw x y n => Laws.RowMatch.drw x y n
  | .skp x => Laws.RowMatch.skp x
  | .sknp x => Laws.RowMatch.sknp x
  | .ldVxDt x => Laws.RowMatch.ldVxDt x
  | .ldVxK x => Laws.RowMatch.ldVxK x
  | .ldDtVx x => Laws.RowMatch.ldDtVx x
  | .ldStVx x => Laws.RowMatch.ldStVx x
  | .addIVx x => Laws.RowMatch.addIVx x
  | .ldFVx x => Laws.RowMatch.ldFVx x
  | .ldBVx x => Laws.RowMatch.ldBVx x
  | .storeVx x => Laws.RowMatch.storeVx x
  | .loadVx x => Laws.RowMatch.loadVx x

/-- The row that an instruction's word matches carries its mnemonic. -/
theorem exists_row_of_decodeWord {w : Word} {i : Instr} (h : decodeWord w = .ok i) :
    ∃ r ∈ opcodeTable, r.mnemonic = i.mnemonic ∧ r.matchesWord w = true :=
  encode_of_decodeWord h ▸ encode_matches_row i

theorem opcodeTable_mnemonics_nodup : (opcodeTable.map OpcodeRow.mnemonic).Nodup := by decide

theorem opcodeTable_rows_disjoint :
    ∀ r ∈ opcodeTable, ∀ q ∈ opcodeTable, r.value &&& q.mask = q.value &&& r.mask → r = q := by decide

theorem OpcodeRow.matchesWord_iff (r : OpcodeRow) (w : Word) : r.matchesWord w = true ↔ w &&& r.mask = r.value :=
  beq_iff_eq

/-- Two rows that a word matches agree on the bits that both fix. -/
theorem opcodeRow_unique {w : Word} {r q : OpcodeRow} (hr : r ∈ opcodeTable) (hq : q ∈ opcodeTable)
    (hrw : r.matchesWord w = true) (hqw : q.matchesWord w = true) : r = q := by
  rw [OpcodeRow.matchesWord_iff] at hrw hqw
  refine opcodeTable_rows_disjoint r hr q hq ?_
  calc r.value &&& q.mask = (w &&& r.mask) &&& q.mask := by rw [hrw]
    _ = (w &&& q.mask) &&& r.mask := by rw [BitVec.and_assoc, BitVec.and_comm r.mask, BitVec.and_assoc]
    _ = q.value &&& r.mask := by rw [hqw]

/-- A row compares every bit that its group's dispatch looks at (R73, R74), and asks there for a value the dispatch knows. -/
theorem opcodeTable_fixes_dispatch :
    ∀ r ∈ opcodeTable, fieldOp r.mask = BitVec.allOnes 4 ∧
      (fieldOp r.value = 0x0#4 → r.mask = BitVec.allOnes 16 ∧ r.value ∈ group0Words) ∧
      (fieldOp r.value = 0x8#4 → fieldN r.mask = BitVec.allOnes 4 ∧ fieldN r.value ∈ group8Functions) ∧
      (fieldOp r.value = 0xE#4 → fieldNn r.mask = BitVec.allOnes 8 ∧ fieldNn r.value ∈ groupEFunctions) ∧
      (fieldOp r.value = 0xF#4 → fieldNn r.mask = BitVec.allOnes 8 ∧ fieldNn r.value ∈ groupFFunctions) := by decide

/-- A bit field under a mask that keeps all of it is unchanged. -/
theorem extractLsb'_and_of_allOnes {w m : Word} {start len : Nat} (h : m.extractLsb' start len = BitVec.allOnes len) :
    (w &&& m).extractLsb' start len = w.extractLsb' start len := by
  rw [BitVec.extractLsb'_and, h, BitVec.and_allOnes]

theorem legalWord_of_matchesWord {w : Word} {r : OpcodeRow} (hr : r ∈ opcodeTable) (h : r.matchesWord w = true) :
    LegalWord w := by
  obtain ⟨hop, h0, h8, hE, hF⟩ := opcodeTable_fixes_dispatch r hr
  rw [OpcodeRow.matchesWord_iff] at h
  rw [← h, show fieldOp (w &&& r.mask) = fieldOp w from extractLsb'_and_of_allOnes hop] at h0 h8 hE hF
  constructor <;> intro e
  · obtain ⟨hmask, hmem⟩ := h0 e
    rwa [hmask, BitVec.and_allOnes] at hmem
  · obtain ⟨hmask, hmem⟩ := h8 e
    rwa [show fieldN (w &&& r.mask) = fieldN w from extractLsb'_and_of_allOnes hmask] at hmem
  · obtain ⟨hmask, hmem⟩ := hE e
    rwa [show fieldNn (w &&& r.mask) = fieldNn w from extractLsb'_and_of_allOnes hmask] at hmem
  · obtain ⟨hmask, hmem⟩ := hF e
    rwa [show fieldNn (w &&& r.mask) = fieldNn w from extractLsb'_and_of_allOnes hmask] at hmem

/-- From left to right the decoded instruction has a row of its own, and a word matches one row only. -/
theorem matchesWord_iff_decodeWord {w : Word} {r : OpcodeRow} (hr : r ∈ opcodeTable) :
    r.matchesWord w = true ↔ ∃ i, decodeWord w = .ok i ∧ i.mnemonic = r.mnemonic := by
  constructor
  · intro h
    obtain ⟨i, hi⟩ := (decodeWord_ok_iff w).2 (legalWord_of_matchesWord hr h)
    obtain ⟨q, hq, hname, hqw⟩ := exists_row_of_decodeWord hi
    exact ⟨i, hi, by rw [← hname, opcodeRow_unique hr hq h hqw]⟩
  · rintro ⟨i, hi, hname⟩
    obtain ⟨q, hq, hname', hqw⟩ := exists_row_of_decodeWord hi
    rwa [List.inj_on_of_nodup_map opcodeTable_mnemonics_nodup hr hq (hname.symm.trans hname'.symm)]

/-- Settles O3: a decoded word matches its mnemonic's row, a word that matches a row decodes, and no word matches two rows. -/
theorem decodeFollowsTheOpcodeTable : Obligations.DecodeFollowsTheOpcodeTable :=
  ⟨rfl, fun _ _ hr => matchesWord_iff_decodeWord hr, fun _ _ hr _ hq => opcodeRow_unique hr hq⟩

end Sys2Proof
end

section
/-! The list of the illegal words (30_encoding.md R78): O4. -/

namespace Sys2Proof.Machine

theorem toNat_div_eq_iff_fieldOp {w : Word} {op : Nibble} : w.toNat / 0x1000 = op.toNat ↔ fieldOp w = op := by
  rw [← toNat_fieldOp, BitVec.toNat_inj]

theorem toNat_lt_iff_fieldOp {w : Word} : w.toNat < 0x1000 ↔ fieldOp w = 0x0#4 := by
  rw [← toNat_div_eq_iff_fieldOp, BitVec.toNat_ofNat]
  omega

section
variable (w : Word)

theorem listed_group0_iff : (w.toNat != 0x00E0 && w.toNat != 0x00EE) = true ↔ w ∉ group0Words := by
  simp [group0Words, BitVec.toNat_eq]

/-- R78's low nibbles of group 0x8 are the ones its dispatch does not know. -/
theorem listed_group8_iff :
    [0x8, 0x9, 0xA, 0xB, 0xC, 0xD, 0xF].contains (w.toNat % 0x10) = true ↔ fieldN w ∉ group8Functions := by
  have h : ∀ n : Nibble, [0x8, 0x9, 0xA, 0xB, 0xC, 0xD, 0xF].contains n.toNat = true ↔ n ∉ group8Functions := by decide
  rw [← toNat_fieldN]
  exact h (fieldN w)

/-- The low bytes of groups 0xE and 0xF are listed by leaving out the ones the dispatch knows. -/
theorem listed_function_iff (l : List Byte) :
    (!(l.map BitVec.toNat).contains (w.toNat % 0x100)) = true ↔ fieldNn w ∉ l := by
  rw [← toNat_fieldNn, Bool.not_eq_true', ← Bool.not_eq_true, List.contains_iff_mem,
    List.mem_map_of_injective fun _ _ => BitVec.eq_of_toNat_eq]

/-- R78's list names, group by group, the words that the group's dispatch does not know. -/
theorem listedIllegal_iff : listedIllegal w = true ↔
    fieldOp w = 0x0#4 ∧ w ∉ group0Words ∨ fieldOp w = 0x8#4 ∧ fieldN w ∉ group8Functions ∨
    fieldOp w = 0xE#4 ∧ fieldNn w ∉ groupEFunctions ∨ fieldOp w = 0xF#4 ∧ fieldNn w ∉ groupFFunctions := by
  rw [← toNat_lt_iff_fieldOp, ← toNat_div_eq_iff_fieldOp, ← toNat_div_eq_iff_fieldOp, ← toNat_div_eq_iff_fieldOp,
    ← listed_group0_iff, ← listed_group8_iff, ← listed_function_iff, ← listed_function_iff]
  simp only [listedIllegal, Bool.or_eq_true, Bool.and_eq_true, decide_eq_true_eq, beq_iff_eq, and_assoc, or_assoc]
  rfl

theorem listedIllegal_eq_false_iff : listedIllegal w = false ↔ LegalWord w := by
  rw [← Bool.not_eq_true, listedIllegal_iff]
  constructor
  · intro h
    exact ⟨fun e => by_contra fun hn => h (.inl ⟨e, hn⟩), fun e => by_contra fun hn => h (.inr (.inl ⟨e, hn⟩)),
      fun e => by_contra fun hn => h (.inr (.inr (.inl ⟨e, hn⟩))),
      fun e => by_contra fun hn => h (.inr (.inr (.inr ⟨e, hn⟩)))⟩
  · rintro ⟨h0, h8, hE, hF⟩ (⟨e, hn⟩ | ⟨e, hn⟩ | ⟨e, hn⟩ | ⟨e, hn⟩)
    · exact hn (h0 e)
    · exact hn (h8 e)
    · exact hn (hE e)
    · exact hn (hF e)

theorem listedIllegal_iff_decodeWord_error : listedIllegal w = true ↔ decodeWord w = .error (.illegalOpcode w) := by
  rw [← Bool.not_eq_false, listedIllegal_eq_false_iff, ← decodeWord_ok_iff]
  cases h : decodeWord w with
  | ok i => simp
  | error e => simp [decodeWord_error h]

end

/-- Settles O4: R78's list leaves out exactly the words that the dispatch of their group knows, so a listed word does not
decode, and the step that fetches it raises. -/
theorem illegalWordsAreExactlyTheListed : Obligations.IllegalWordsAreExactlyTheListed := by
  refine ⟨listedIllegal_iff_decodeWord_error, fun w => ?legal, by decide, fun s w herr hfetch hlisted => ?step⟩
  case legal => rw [listedIllegal_eq_false_iff, decodeWord_ok_iff]
  case step => exact step_of_illegal herr hfetch ((listedIllegal_iff_decodeWord_error w).1 hlisted)

end Sys2Proof.Machine
end

section
/-! The fields that no instruction examines (30_encoding.md R75): O5. -/

namespace Sys2Proof.Machine

section
variable (x y y' : RegNum) (n : Nibble) (s : State)

theorem decodeWord_seVxVy : decodeWord (formatXY 0x5#4 x y n) = .ok (.seVxVy x y n) := by
  rw [decodeWord, fieldOp_formatXY, fieldX_formatXY, fieldY_formatXY, fieldN_formatXY]
  rfl

theorem decodeWord_sneVxVy : decodeWord (formatXY 0x9#4 x y n) = .ok (.sneVxVy x y n) := by
  rw [decodeWord, fieldOp_formatXY, fieldX_formatXY, fieldY_formatXY, fieldN_formatXY]
  rfl

theorem decodeWord_shrVx : decodeWord (formatXY 0x8#4 x y 0x6#4) = .ok (.shrVx x y) := by
  rw [decodeWord_of_op_8 (fieldOp_formatXY ..), decodeGroup8, fieldX_formatXY, fieldY_formatXY, fieldN_formatXY]
  rfl

theorem decodeWord_shlVx : decodeWord (formatXY 0x8#4 x y 0xE#4) = .ok (.shlVx x y) := by
  rw [decodeWord_of_op_8 (fieldOp_formatXY ..), decodeGroup8, fieldX_formatXY, fieldY_formatXY, fieldN_formatXY]
  rfl

theorem exec_shrVx_any_y : exec (.shrVx x y) s = exec (.shrVx x y') s := by
  simp only [exec, execShrVx, shiftOperand_eq]

theorem exec_shlVx_any_y : exec (.shlVx x y) s = exec (.shlVx x y') s := by
  simp only [exec, execShlVx, shiftOperand_eq]

end

/-- Settles O5: the decoder keeps the field in the term, and no meaning reads it. -/
theorem unexaminedFieldsChangeNothing : Obligations.UnexaminedFieldsChangeNothing := by
  intro x y y' n s
  exact ⟨⟨decodeWord_seVxVy x y n, rfl⟩, ⟨decodeWord_sneVxVy x y n, rfl⟩,
    ⟨decodeWord_shrVx x y, exec_shrVx_any_y x y y' s⟩, ⟨decodeWord_shlVx x y, exec_shlVx_any_y x y y' s⟩⟩

end Sys2Proof.Machine
end

section
/-! A step that fails (40_step_cycle.md R97), and O11. -/

namespace Sys2Proof.Machine

/-- A step leaves ERR clear, or raises and does nothing else, whichever of fetch, decode and execute fails. -/
theorem step_err_cases {s t : State} (h : step s = .next t) : t.err = none ∨ ∃ c, t = s.raise c := by
  obtain ⟨herr, ⟨c, -, ht⟩ | ⟨w, -, -, ht⟩ | ⟨w, i, -, -, he⟩⟩ := step_cases h
  · exact .inr ⟨c, ht⟩
  · exact .inr ⟨_, ht⟩
  · exact (exec_err_cases he).imp_left (·.trans herr)

theorem step_eq_raise_of_err {s t : State} {r : ErrRecord} (h : step s = .next t) (hr : t.err = some r) :
    r.pc = s.pc ∧ t = { s with err := some r } := by
  obtain hnone | ⟨c, rfl⟩ := step_err_cases h
  · nomatch hnone.symm.trans hr
  · cases hr
    exact ⟨rfl, rfl⟩

/-- A `STEP` that answers an error ran a step whose next state holds the record, and took its byte off the random input again. -/
theorem stepCommand_eq_error {s t : State} {rnd : Byte} {r : ErrRecord} (herr : s.err = none)
    (h : s.stepCommand rnd = (t, .error r)) :
    ∃ u, step (s.withRandIn [rnd]) = .next u ∧ u.err = some r ∧ t = u.withRandIn s.rndIn := by
  cases hs : s.stalls with
  | true => nomatch (stepCommand_of_stall herr hs rnd).symm.trans h
  | false =>
    cases hstep : step (s.withRandIn [rnd]) with
    | fault f => nomatch (stepCommand_of_fault herr hs hstep).symm.trans h
    | refused f => simp [State.stepCommand, herr, hs, hstep] at h
    | next u =>
      rw [stepCommand_of_next herr hs hstep] at h
      obtain ⟨ht, hresp⟩ := Prod.mk.inj h
      cases hu : u.err with
      | none => simp [hu] at hresp
      | some q =>
        simp only [hu, Response.error.injEq] at hresp
        exact ⟨u, rfl, hresp ▸ hu, ht.symm⟩

/-- Settles O11: the next state is the state before with an error raised, and the `STEP` command puts back the one other field it
had set, the random input. -/
theorem failingStepChangesOnlyErr : Obligations.FailingStepChangesOnlyErr := by
  refine ⟨fun s t h ht => ?step, fun s t rnd r herr h => ?command⟩
  case step =>
    obtain ⟨r, hr⟩ := Option.ne_none_iff_exists'.1 ht
    exact ⟨r, step_eq_raise_of_err h hr⟩
  case command =>
    obtain ⟨u, hstep, hu, rfl⟩ := stepCommand_eq_error herr h
    obtain ⟨hpc, rfl⟩ := step_eq_raise_of_err hstep hu
    exact ⟨hpc, rfl⟩

end Sys2Proof.Machine
end

section
/-! The fetch (40_step_cycle.md R91), and O8. -/

namespace Sys2Proof.Machine

/-- Settles O8: one clause for each outcome of a fetch; a fetch that fails is raised by the step. -/
theorem fetchIsBigEndianAndRangeChecked : Obligations.FetchIsBigEndianAndRangeChecked := by
  intro s herr
  rcases s.fetch_cases with ⟨hpc, hf⟩ | ⟨hpc, hf⟩ | ⟨hpc, hf⟩
  · exact ⟨fun _ => by omega, fun _ => by omega, fun _ => step_of_error herr hf⟩
  · exact ⟨fun _ => by omega, fun _ => step_of_error herr hf, fun _ => by omega⟩
  · refine ⟨fun _ => ⟨_, hf, ?_⟩, fun _ => by omega, fun _ => by omega⟩
    rw [toNat_wordOfBytes, Nat.mul_comm]

end Sys2Proof.Machine
end

section
/-! The commands while ERR is set (40_step_cycle.md R98, 60_exceptions.md R175), and O9. -/

namespace Sys2Proof.Machine

@[simp] theorem State.keyWrite_err (s : State) (k : RegNum) (down : Bool) : (s.keyWrite k down).err = s.err := rfl

section
variable {s : State} {r : ErrRecord} (herr : s.err = some r)
include herr

theorem tick_of_latched : s.tick = s := by
  simp only [State.tick, herr]

theorem loadCommand_of_latched (bytes : List Byte) : s.loadCommand bytes = (s, .ignored) := by
  simp only [State.loadCommand, herr]

theorem command_err_of_latched {c : Command} (hc : c ≠ .reset) : (s.command c).1.err = some r := by
  cases c with
  | reset => exact absurd rfl hc
  | load bytes => rw [State.command, loadCommand_of_latched herr, herr]
  | step rnd => rw [State.command, stepCommand_of_latched herr, herr]
  | tick => rw [State.command, tick_of_latched herr, herr]
  | keyWrite k down => rw [State.command, State.keyWrite_err, herr]

end

/-- Settles O9: each command but `RESET` does nothing while ERR is set, or writes K alone; the reset value of ERR is clear. -/
theorem latchedErrorStopsEveryStep : Obligations.LatchedErrorStopsEveryStep := by
  intro s r herr
  exact ⟨stepCommand_of_latched herr, fun _ => command_err_of_latched herr, s.resetCommand_err⟩

end Sys2Proof.Machine
end

section
/-! What the jumps and the stack operations leave unchanged (41_control_flow.md, its template of every rule: "None of these
instructions writes a general register, VF, I, MEM, FB, DT or ST"). -/

namespace Sys2Proof.Machine

variable (s : State)

/-- An update of the general registers, I and PC touches nothing that `SameElsewhere` speaks of. -/
theorem sameElsewhere_of_v_idx_pc (v : Vector Byte 16) (idx pc : Word) :
    SameElsewhere s { s with v := v, idx := idx, pc := pc } :=
  ⟨fun _ => rfl, fun _ _ => rfl, ⟨rfl, fun _ => rfl⟩, ⟨rfl, rfl⟩, fun _ => rfl, ⟨rfl, rfl⟩, rfl⟩

theorem pcEffect_setPc (a : Word) : PcEffect a s (s.setPc a) :=
  ⟨s.setPc_pc a, fun r _ => s.getV_setPc r a, s.setPc_idx a, sameElsewhere_of_v_idx_pc s s.v s.idx a⟩

/-- All that a call or a return leaves alone: everything but PC, SP and STACK (R101, R102). -/
def SameExceptPcAndStack (s t : State) : Prop :=
  SameRegsExcept [] s t ∧ t.idx = s.idx ∧ SameMemory s t ∧ SameDisplay s t ∧ SameTimers s t ∧ SameKeys s t ∧
  SameRandom s t ∧ t.err = s.err

theorem sameExceptPcAndStack_of_pc_sp_stack (pc : Word) (sp : Byte) (stack : Vector Word 16) :
    SameExceptPcAndStack s { s with pc := pc, sp := sp, stack := stack } :=
  ⟨fun _ _ => rfl, rfl, fun _ => rfl, fun _ _ => rfl, ⟨rfl, rfl⟩, fun _ => rfl, ⟨rfl, rfl⟩, rfl⟩

/-- A push writes the entry it names and no other (10_state.md R27). -/
theorem State.push_stack_getElem (k j : RegNum) (a : Word) :
    (s.push k a).stack[j.val] = if j.val = k.val then a else s.stack[j.val] := by
  simp only [State.push_stack, Vector.getElem_set, eq_comm]

end Sys2Proof.Machine
end

section
/-! The two jumps (41_control_flow.md R100, R103), and O22. -/

namespace Sys2Proof.Machine

theorem exec_jp (nnn : Addr) (s : State) : exec (.jp nnn) s = .next (s.setPc (addrOperand nnn)) := rfl

theorem exec_jpV0 (nnn : Addr) (s : State) : exec (.jpV0 nnn) s = .next (s.setPc (offsetTarget s nnn)) := rfl

@[simp] theorem toNat_addrOperand (nnn : Addr) : (addrOperand nnn).toNat = nnn.toNat := by
  rw [addrOperand, BitVec.toNat_setWidth]
  omega

/-- The sum of a 12-bit and an 8-bit number fits PC: "no wrap, no mask" (R103). -/
theorem toNat_offsetTarget (s : State) (nnn : Addr) : (offsetTarget s nnn).toNat = nnn.toNat + (s.getV 0).toNat := by
  rw [offsetTarget_eq, BitVec.toNat_add, toNat_addrOperand, BitVec.toNat_setWidth]
  omega

/-- Settles O22: each jump sets PC and nothing else, and its target fits 16 bits. -/
theorem jumpsReplacePc : Obligations.JumpsReplacePc := by
  intro nnn s
  exact ⟨⟨_, exec_jp nnn s, pcEffect_setPc s _, toNat_addrOperand nnn⟩,
    ⟨_, exec_jpV0 nnn s, pcEffect_setPc s _, toNat_offsetTarget s nnn⟩⟩

end Sys2Proof.Machine
end

section
/-! Call and return (41_control_flow.md R101, R102): O23 and O24. -/

namespace Sys2Proof.Machine

section
variable {s : State}

theorem exec_call_of_lt (nnn : Addr) (h : s.sp.toNat < 16) :
    exec (.call nnn) s = .next ((s.push ⟨s.sp.toNat, h⟩ (s.pc + 2)).setPc (addrOperand nnn)) := by
  rcases execCall_cases nnn s with ⟨hfull, -⟩ | ⟨_, hpush⟩ | ⟨habove, -⟩
  · exact absurd (hfull ▸ h) (by decide)
  · exact hpush
  · omega

theorem exec_call_of_full (nnn : Addr) (h : s.sp = 16) : exec (.call nnn) s = .next (s.raise (.stackOverflow 16)) :=
  h ▸ if_pos h

theorem exec_ret_of_ne_zero (h : s.sp.toNat - 1 < 16) (hne : s.sp ≠ 0) :
    exec .ret s = .next (s.pop.setPc s.stack[s.sp.toNat - 1]) := by
  rcases execRet_cases s with ⟨hempty, -⟩ | ⟨_, -, hpop⟩ | ⟨habove, -⟩
  · exact absurd hempty hne
  · exact hpop
  · omega

theorem exec_ret_of_empty (h : s.sp = 0) : exec .ret s = .next (s.raise (.stackUnderflow 0)) :=
  h ▸ if_pos h

theorem State.pop_sp_add_one (hne : s.sp ≠ 0) : s.pop.sp.toNat + 1 = s.sp.toNat := by
  rw [State.pop_sp]
  bv_omega

end

/-- Settles O23: below 16 entries the call pushes and jumps, with 16 it raises. -/
theorem callPushesTheReturnAddress : Obligations.CallPushesTheReturnAddress := by
  refine fun nnn s => ⟨fun hsp => ?push, fun hfull => exec_call_of_full nnn hfull⟩
  case push =>
    exact ⟨_, exec_call_of_lt nnn hsp, toNat_addrOperand nnn, rfl, fun k => s.push_stack_getElem _ k _,
      sameExceptPcAndStack_of_pc_sp_stack s ..⟩

/-- Settles O24: with an entry on the stack the return pops it and jumps there, with none it raises. -/
theorem returnPopsTheReturnAddress : Obligations.ReturnPopsTheReturnAddress := by
  refine fun s => ⟨fun hlt hne => ?pop, fun hempty => exec_ret_of_empty hempty⟩
  case pop =>
    exact ⟨_, exec_ret_of_ne_zero hlt hne, rfl, State.pop_sp_add_one hne, fun _ => rfl,
      sameExceptPcAndStack_of_pc_sp_stack s ..⟩

end Sys2Proof.Machine
end

section
/-! The skips (41_control_flow.md R104 to R108), and O26. -/

namespace Sys2Proof.Machine

/-- R108 as one target: a taken skip goes to `PC0 + 4`. -/
theorem State.skipIf_eq_setPc (s : State) (c : Bool) : s.skipIf c = s.setPc (if c then s.pc + 4 else s.pc + 2) := by
  rw [State.skipIf_eq, BitVec.add_assoc]
  rfl

section
variable (s : State) (a b : Byte)

theorem pcEffect_skipIf_beq : PcEffect (if a = b then s.pc + 4 else s.pc + 2) s (s.skipIf (a == b)) := by
  simpa only [State.skipIf_eq_setPc, beq_iff_eq] using pcEffect_setPc s (if a = b then s.pc + 4 else s.pc + 2)

theorem pcEffect_skipIf_bne : PcEffect (if a = b then s.pc + 2 else s.pc + 4) s (s.skipIf (a != b)) := by
  simpa only [State.skipIf_eq_setPc, bne_iff_ne, ne_eq, ite_not] using
    pcEffect_setPc s (if a = b then s.pc + 2 else s.pc + 4)

end

/-- Settles O26: each compare is one skip, taken on equality by the two SE and on inequality by the two SNE. -/
theorem comparesSkipOneInstruction : Obligations.ComparesSkipOneInstruction := by
  intro x y nn n s
  exact ⟨⟨_, rfl, pcEffect_skipIf_beq s (s.getV x) nn⟩, ⟨_, rfl, pcEffect_skipIf_bne s (s.getV x) nn⟩,
    ⟨_, rfl, pcEffect_skipIf_beq s (s.getV x) (s.getV y)⟩, ⟨_, rfl, pcEffect_skipIf_bne s (s.getV x) (s.getV y)⟩⟩

end Sys2Proof.Machine
end

section
/-! The two forms in which an arithmetic or logic instruction ends (42_alu.md R120 to R132): V[X] written alone, or V[X] and then
VF; and the results of the shifts as numbers. -/

namespace Sys2Proof.Machine

section
variable (s : State) (x : RegNum) (b flag : Byte)

theorem registerEffect_setV : RegisterEffect x b s (s.advance.setV x b) :=
  ⟨State.getV_setV_self _ x b, fun _ hr => State.getV_setV_ne _ b (List.ne_of_not_mem_cons hr), rfl, rfl,
    sameElsewhere_of_v_idx_pc s ..⟩

/-- The logic operations write V[X] alone, since `LOGIC_RESETS_VF` is off (D10). -/
theorem registerEffect_setVLogic : RegisterEffect x b s (s.advance.setVLogic x b) := by
  simpa only [State.setVLogic_eq] using registerEffect_setV s x b

/-- VF is written last, so it holds the flag whatever X is (R132). -/
theorem flagEffect_setVFlag : FlagEffect x b flag s (s.advance.setVFlag x b flag) := by
  rw [State.setVFlag_eq]
  refine ⟨State.getV_setV_self _ vf flag, fun hx => ?dest, fun r hr => ?frame, rfl, rfl, sameElsewhere_of_v_idx_pc s ..⟩
  case dest => rw [State.getV_setV_ne _ flag hx, State.getV_setV_self]
  case frame =>
    obtain ⟨hrx, hrvf⟩ : r ≠ x ∧ r ≠ vf := by simpa using hr
    rw [State.getV_setV_ne _ flag hrvf, State.getV_setV_ne _ b hrx]
    rfl

end

theorem sumByte_eq (a b : Byte) : sumByte a b = BitVec.ofNat 8 ((a.toNat + b.toNat) % 256) := by
  rw [← sumByte_toNat, BitVec.ofNat_toNat, BitVec.setWidth_eq]

theorem ushiftRight_one_eq (a : Byte) : a >>> 1 = BitVec.ofNat 8 (a.toNat / 2) := by
  apply BitVec.eq_of_toNat_eq
  rw [BitVec.toNat_ushiftRight, Nat.shiftRight_one, BitVec.toNat_ofNat]
  omega

theorem shiftLeft_one_eq (a : Byte) : a <<< 1 = BitVec.ofNat 8 (a.toNat * 2 % 256) := by
  apply BitVec.eq_of_toNat_eq
  rw [BitVec.toNat_shiftLeft, Nat.shiftLeft_eq, BitVec.toNat_ofNat]
  omega

end Sys2Proof.Machine
end

section
/-! Loads, moves and logic, which write no flag (42_alu.md R120 to R125): O29 and O30. -/

namespace Sys2Proof.Machine

/-- Settles O29: each form writes V[X] alone, the sum cut to a byte. -/
theorem immediateLoadAndAdd : Obligations.ImmediateLoadAndAdd := by
  intro x nn s
  refine ⟨⟨_, rfl, registerEffect_setV s x nn⟩, ⟨_, rfl, ?add⟩⟩
  case add =>
    rw [← sumByte_eq]
    exact registerEffect_setV s x _

/-- What a logic operation leaves in V[X] is its result, whose bits `hbits` gives. -/
theorem logicEffect_of_bits (s : State) (x : RegNum) {b : Byte} {bit : Nat → Bool} (hbits : ∀ k, b.getLsbD k = bit k) :
    RegisterEffect x ((s.advance.setVLogic x b).getV x) s (s.advance.setVLogic x b) ∧
    ∀ k < 8, ((s.advance.setVLogic x b).getV x).getLsbD k = bit k := by
  have hresult : (s.advance.setVLogic x b).getV x = b := State.getV_setV_self _ x b
  rw [hresult]
  exact ⟨registerEffect_setVLogic s x b, fun k _ => hbits k⟩

/-- Settles O30: each instruction writes V[X] alone, and the logic operations act on each bit. -/
theorem moveAndLogicOperations : Obligations.MoveAndLogicOperations := by
  intro x y s
  exact ⟨⟨_, rfl, registerEffect_setV s x (s.getV y)⟩,
    ⟨_, rfl, logicEffect_of_bits s x fun _ => BitVec.getLsbD_or⟩,
    ⟨_, rfl, logicEffect_of_bits s x fun _ => BitVec.getLsbD_and⟩,
    ⟨_, rfl, logicEffect_of_bits s x fun _ => BitVec.getLsbD_xor⟩⟩

end Sys2Proof.Machine
end

section
/-! Addition, subtraction and shifts, which write VF after V[X] (42_alu.md R126 to R130, R132): O31 and O32. -/

namespace Sys2Proof.Machine

/-- An instruction that answers `setVFlag` has the effect of its result and its flag, in whatever form the two are given. -/
theorem exists_flagEffect {i : Instr} {x : RegNum} {s : State} {b b' flag flag' : Byte}
    (he : exec i s = .next (s.advance.setVFlag x b flag)) (hb : b = b') (hflag : flag = flag') :
    ∃ t, exec i s = .next t ∧ FlagEffect x b' flag' s t :=
  ⟨_, he, hb ▸ hflag ▸ flagEffect_setVFlag s x b flag⟩

section
variable (x y : RegNum) (s : State)

/-- The byte shifted is V[X], since `SHIFT_USES_VY` is off (D8). -/
theorem exec_shrVx :
    exec (.shrVx x y) s = .next (s.advance.setVFlag x (s.getV x >>> 1) (shiftedOutRight (s.getV x))) := by
  simp only [exec, execShrVx, shiftOperand_eq]

theorem exec_shlVx :
    exec (.shlVx x y) s = .next (s.advance.setVFlag x (s.getV x <<< 1) (shiftedOutLeft (s.getV x))) := by
  simp only [exec, execShlVx, shiftOperand_eq]

end

/-- Settles O31: the result and the flag of each operation are the model's bytes as numbers. -/
theorem addAndSubtractWithFlag : Obligations.AddAndSubtractWithFlag := by
  intro x y s
  exact ⟨exists_flagEffect rfl (sumByte_eq _ _) (carryFlag_eq_ite _ _),
    exists_flagEffect rfl (differenceByte_eq _ _) (noBorrowFlag_eq_ite _ _),
    exists_flagEffect rfl (differenceByte_eq _ _) (noBorrowFlag_eq_ite _ _)⟩

/-- Settles O32: both shifts act on V[X], and are its half and its double as numbers. -/
theorem shiftsByOneWithFlag : Obligations.ShiftsByOneWithFlag := by
  intro x y s
  exact ⟨exists_flagEffect (exec_shrVx x y s) (ushiftRight_one_eq _) (shiftedOutRight_eq _),
    exists_flagEffect (exec_shlVx x y s) (shiftLeft_one_eq _) (shiftedOutLeft_eq _)⟩

end Sys2Proof.Machine
end

section
/-! The instructions that load I (43_index_memory.md R140 to R142), and O34. -/

namespace Sys2Proof.Machine

theorem indexEffect_setIdx (s : State) (a : Word) : IndexEffect a s (s.advance.setIdx a) :=
  ⟨rfl, fun _ _ => rfl, rfl, sameElsewhere_of_v_idx_pc s ..⟩

/-- An instruction that answers `setIdx` has the effect of the address it computes, in whatever form that is given. -/
theorem exists_indexEffect {i : Instr} {s : State} {a a' : Word} (he : exec i s = .next (s.advance.setIdx a))
    (ha : a = a') : ∃ t, exec i s = .next t ∧ IndexEffect a' s t :=
  ⟨_, he, ha ▸ indexEffect_setIdx s a⟩

theorem addrOperand_eq (nnn : Addr) : addrOperand nnn = BitVec.ofNat 16 nnn.toNat := by
  rw [← toNat_addrOperand, BitVec.ofNat_toNat, BitVec.setWidth_eq]

/-- "I is a 16-bit register, so the sum wraps at 65536, not at 4096" (R141). -/
theorem index_add_byte_eq (a : Word) (b : Byte) :
    a + b.setWidth 16 = BitVec.ofNat 16 ((a.toNat + b.toNat) % 65536) := by
  apply BitVec.eq_of_toNat_eq
  rw [BitVec.toNat_add, BitVec.toNat_setWidth, BitVec.toNat_ofNat]
  omega

/-- The glyphs stand at 0x050, 5 bytes each, and the high half of the byte is ignored (R142). -/
theorem glyphAddress_lowNibble (b : Byte) :
    glyphAddress (lowNibble b) = BitVec.ofNat 16 (0x050 + 5 * (b.toNat % 16)) := rfl

/-- Settles O34: each instruction sets I alone, to the model's address as a number. -/
theorem indexRegisterLoads : Obligations.IndexRegisterLoads := by
  intro nnn x s
  exact ⟨exists_indexEffect rfl (addrOperand_eq nnn), exists_indexEffect rfl (index_add_byte_eq _ _),
    exists_indexEffect rfl (glyphAddress_lowNibble _)⟩

end Sys2Proof.Machine
end

section
/-! A block access at I (43_index_memory.md R143 to R146): when it raises, what its store leaves in memory, and what it leaves
unchanged. -/

namespace Sys2Proof.Machine

/-- An instruction whose last data address `I + last` is above 0xFFF raises, with the lowest address out of range (R146). -/
theorem exec_of_last_address_above {i : Instr} {s : State} {last : Nat} (hlen : dataLength i = last + 1)
    (h : s.idx.toNat + last > 0xFFF) :
    exec i s = .next (s.raise (.memoryOutOfBounds (max s.idx.toNat 0x1000))) :=
  exec_of_blockError (s.blockError_eq_some (by omega) (by omega))

/-- All that a store leaves alone: everything but PC, which moves to the next instruction, and MEM. -/
def SameExceptMemory (s t : State) : Prop :=
  t.pc = s.pc + 2 ∧ t.idx = s.idx ∧ SameRegsExcept [] s t ∧ SameDisplay s t ∧ SameStack s t ∧ SameTimers s t ∧
  SameKeys s t ∧ SameRandom s t ∧ t.err = s.err

section
variable (s : State) (bs : List Byte)

theorem sameExceptMemory_writeBlock : SameExceptMemory s (s.advance.writeBlock bs) :=
  ⟨rfl, rfl, fun _ _ => rfl, fun _ _ => rfl, ⟨rfl, fun _ => rfl⟩, ⟨rfl, rfl⟩, fun _ => rfl, ⟨rfl, rfl⟩, rfl⟩

variable {s bs} (hwf : s.mem.wf) (hfit : s.idx.toNat + bs.length ≤ 0x1000)
include hwf hfit

theorem get_writeBlock_of_lt {k : Nat} (hk : k < bs.length) :
    (s.advance.writeBlock bs).mem.get (s.idx.toNat + k) = bs.getD k 0 := by
  have hget := Memory.get_setBlock hwf hfit (s.idx.toNat + k)
  rwa [if_pos (by omega), Nat.add_sub_cancel_left] at hget

theorem sameMemoryOutside_writeBlock : SameMemoryOutside s.idx.toNat bs.length s (s.advance.writeBlock bs) :=
  fun a ha => (Memory.get_setBlock hwf hfit a).trans (if_neg ha)

end

end Sys2Proof.Machine
end

section
/-! The decimal digits of a register stored at I (43_index_memory.md R143), and O35. -/

namespace Sys2Proof.Machine

theorem exec_ldBVx_of_le (x : RegNum) {s : State} (h : s.idx.toNat + 2 ≤ 0xFFF) :
    exec (.ldBVx x) s = .next (s.advance.writeBlock (bcdDigits (s.getV x))) := by
  rcases execLdBVx_cases x s with ⟨-, hstore⟩ | ⟨habove, -⟩
  · exact hstore
  · omega

/-- Hundreds, tens and ones, each of which fits its byte. -/
theorem bcdDigits_eq (b : Byte) : ∃ hundreds tens ones : Byte, bcdDigits b = [hundreds, tens, ones] ∧
    hundreds.toNat = b.toNat / 100 ∧ tens.toNat = b.toNat / 10 % 10 ∧ ones.toNat = b.toNat % 10 := by
  have hb := b.isLt
  refine ⟨_, _, _, rfl, ?_⟩
  simp only [BitVec.toNat_ofNat]
  omega

/-- Settles O35: in range the three digits are one block stored at I, out of range the block check raises. -/
theorem bcdStoreWritesThreeDigits : Obligations.BcdStoreWritesThreeDigits := by
  refine fun x s hwf => ⟨fun hle => ?store, fun habove => exec_of_last_address_above rfl habove⟩
  case store =>
    obtain ⟨hundreds, tens, ones, hdigits, hhundreds, htens, hones⟩ := bcdDigits_eq (s.getV x)
    have hfit : s.idx.toNat + [hundreds, tens, ones].length ≤ 0x1000 := by
      simp only [List.length_cons, List.length_nil]
      omega
    have hget {k : Nat} (hk : k < 3) := congrArg BitVec.toNat (get_writeBlock_of_lt hwf hfit hk)
    exact ⟨_, hdigits ▸ exec_ldBVx_of_le x hle, (hget (k := 0) (by decide)).trans hhundreds,
      (hget (k := 1) (by decide)).trans htens, (hget (k := 2) (by decide)).trans hones,
      sameMemoryOutside_writeBlock hwf hfit, sameExceptMemory_writeBlock s _⟩

end Sys2Proof.Machine
end

section
/-! V0 to V[X] stored at I (43_index_memory.md R144), and O36. -/

namespace Sys2Proof.Machine

theorem exec_storeVx_of_le {x : RegNum} {s : State} (h : s.idx.toNat + x.val ≤ 0xFFF) :
    exec (.storeVx x) s = .next (s.advance.writeBlock (registersThrough s x)) := by
  rcases execStoreVx_cases x s with ⟨-, hstore⟩ | ⟨habove, -⟩
  · exact hstore
  · omega

/-- Settles O36: in range the registers are one block stored at I, out of range the block check raises. -/
theorem blockStoreWritesRegisters : Obligations.BlockStoreWritesRegisters := by
  refine fun x s hwf => ⟨fun hle => ?store, fun habove => exec_of_last_address_above rfl habove⟩
  case store =>
    have hlen := registersThrough_length s x
    have hfit : s.idx.toNat + (registersThrough s x).length ≤ 0x1000 := by omega
    refine ⟨_, exec_storeVx_of_le hle, fun k hk => ?bytes, ?frame, sameExceptMemory_writeBlock s _⟩
    case bytes =>
      rw [get_writeBlock_of_lt hwf hfit (hlen ▸ Nat.lt_succ_of_le hk), registersThrough_getD s x k hk]
    case frame => exact hlen ▸ sameMemoryOutside_writeBlock hwf hfit

end Sys2Proof.Machine
end

section
/-! V0 to V[X] loaded from I (43_index_memory.md R145), and O37. -/

namespace Sys2Proof.Machine

theorem exec_loadVx_of_le {x : RegNum} {s : State} (h : s.idx.toNat + x.val ≤ 0xFFF) :
    exec (.loadVx x) s = .next (s.advance.setVs 0 (s.readBlock (x.val + 1))) := by
  rcases execLoadVx_cases x s with ⟨-, hload⟩ | ⟨habove, -⟩
  · exact hload
  · omega

/-- A block load gives every register up to V[X] its byte and no other register a value. -/
theorem getV_setVs_readBlock (x k : RegNum) (s : State) :
    (s.advance.setVs 0 (s.readBlock (x.val + 1))).getV k =
      if k ≤ x then s.mem.get (s.idx.toNat + k.val) else s.getV k := by
  rw [State.getV_setVs, State.readBlock_length, Nat.sub_zero]
  by_cases hk : k ≤ x
  · have hlt : k.val < x.val + 1 := Nat.lt_succ_of_le hk
    rw [if_pos hk, if_pos (by omega), State.readBlock_getD _ hlt]
  · have hlt : x.val < k.val := Nat.lt_of_not_le hk
    rw [if_neg hk, if_neg (by omega)]
    rfl

/-- Settles O37: in range the bytes at I go to V0 to V[X], out of range the block check raises. -/
theorem blockLoadReadsRegisters : Obligations.BlockLoadReadsRegisters := by
  refine fun x s => ⟨fun hle => ?load, fun habove => exec_of_last_address_above rfl habove⟩
  case load =>
    refine ⟨_, exec_loadVx_of_le hle, fun k => getV_setVs_readBlock x k s, ?_⟩
    rw [State.setVs_frame]
    exact ⟨rfl, rfl, sameElsewhere_of_v_idx_pc s ..⟩

end Sys2Proof.Machine
end

section
/-! The display instructions (44_display.md R150 to R152): what both leave unchanged, what a draw leaves on the screen and in VF, and
O42 and O43. -/

namespace Sys2Proof.Machine

/-! ## The frame of a display instruction -/

/-- All that clearing and drawing leave alone: everything but the general registers, PC and FB. -/
def SameExceptRegsPcAndDisplay (s t : State) : Prop :=
  t.idx = s.idx ∧ SameMemory s t ∧ SameStack s t ∧ SameTimers s t ∧ SameKeys s t ∧ SameRandom s t ∧ t.err = s.err

theorem sameExceptRegsPcAndDisplay_of_v_pc_fb (s : State) (v : Vector Byte 16) (pc : Word) (fb : Framebuffer) :
    SameExceptRegsPcAndDisplay s { s with v := v, pc := pc, fb := fb } :=
  ⟨rfl, fun _ => rfl, ⟨rfl, fun _ => rfl⟩, ⟨rfl, rfl⟩, fun _ => rfl, ⟨rfl, rfl⟩, rfl⟩

/-! ## Clearing -/

/-- Settles O42: the state after is the one before with PC advanced and FB blank. -/
theorem clearScreenClearsEveryPixel : Obligations.ClearScreenClearsEveryPixel := fun s =>
  ⟨s.advance.setFb Framebuffer.blank, rfl, Framebuffer.blank_pixel, rfl, fun _ _ => rfl,
    sameExceptRegsPcAndDisplay_of_v_pc_fb s s.v (s.pc + 2) Framebuffer.blank⟩

/-! ## Drawing -/

/-- The state after a draw whose sprite bytes are all in range. -/
def State.drawn (s : State) (x y : RegNum) (n : Nat) : State :=
  (s.advance.setFb (drawSprite s x y n).1).setV vf (flagByte (drawSprite s x y n).2)

/-- A set pixel of the screen meets a set bit of the sprite (R151). -/
def SpriteCollides (s : State) (x y : RegNum) (n : Nat) : Prop :=
  ∃ py px, py < 32 ∧ px < 64 ∧ s.pixel py px = true ∧ spriteBitAt s x y n py px = true

section
variable {x y : RegNum} {n : Nat} {s : State}

theorem exec_drw_of_le (h : n = 0 ∨ s.idx.toNat + n - 1 ≤ 0xFFF) : exec (.drw x y n) s = .next (s.drawn x y n) := by
  rcases execDrw_cases x y n s with ⟨-, hdraw⟩ | ⟨hn, habove, -⟩
  · exact hdraw
  · omega

theorem exec_drw_of_above (hn : n > 0) (h : s.idx.toNat + n - 1 > 0xFFF) :
    exec (.drw x y n) s = .next (s.raise (.memoryOutOfBounds (max s.idx.toNat 0x1000))) := by
  rcases execDrw_cases x y n s with ⟨hle, -⟩ | ⟨-, -, hraise⟩
  · omega
  · exact hraise

/-- A sprite bit that falls on a pixel of the screen is not clipped, so it toggles that pixel (R151, R152). -/
theorem State.pixel_drawn {py px : Nat} (hpy : py < 32) (hpx : px < 64) :
    (s.drawn x y n).pixel py px = (s.pixel py px ^^ spriteBitAt s x y n py px) := by
  obtain ⟨hpixel, -⟩ := drawSprite_spec s x y n
  have hbit : decide (py < 32 ∧ px < 64 ∧ spriteBitAt s x y n py px = true) = spriteBitAt s x y n py px := by
    simp only [hpy, hpx, true_and, Bool.decide_eq_true]
  exact (hpixel py px).trans (congrArg _ hbit)

theorem State.getV_vf_drawn_of_collides (h : SpriteCollides s x y n) : (s.drawn x y n).getV vf = 1 := by
  obtain ⟨-, hcollision⟩ := drawSprite_spec s x y n
  rw [State.drawn, State.getV_setV_self, hcollision.2 h]
  rfl

theorem State.getV_vf_drawn_of_not_collides (h : ¬ SpriteCollides s x y n) : (s.drawn x y n).getV vf = 0 := by
  obtain ⟨-, hcollision⟩ := drawSprite_spec s x y n
  rw [State.drawn, State.getV_setV_self, Bool.eq_false_iff.2 (mt hcollision.1 h)]
  rfl

theorem sameRegsExcept_vf_drawn : SameRegsExcept [vf] s (s.drawn x y n) :=
  fun _ hr => State.getV_setV_ne _ _ (List.ne_of_not_mem_cons hr)

theorem sameExceptRegsPcAndDisplay_drawn : SameExceptRegsPcAndDisplay s (s.drawn x y n) :=
  sameExceptRegsPcAndDisplay_of_v_pc_fb s (s.drawn x y n).v (s.pc + 2) (drawSprite s x y n).1

end

/-- Settles O43: in range the pixels XOR and VF is 1 exactly when the sprite collides, out of range the block check raises. -/
theorem drawXorsTheSprite : Obligations.DrawXorsTheSprite := by
  refine fun x y n s => ⟨fun hle => ?draw, exec_drw_of_above⟩
  case draw =>
    refine ⟨s.drawn x y n, exec_drw_of_le hle, fun _ _ => State.pixel_drawn, State.getV_vf_drawn_of_collides,
      fun hnone => State.getV_vf_drawn_of_not_collides ?apart, sameRegsExcept_vf_drawn, rfl, sameExceptRegsPcAndDisplay_drawn⟩
    case apart =>
      rintro ⟨py, px, hpy, hpx, hset, hbit⟩
      exact Bool.false_ne_true ((hnone py px hpy hpx hset).symm.trans hbit)

end Sys2Proof.Machine
end

section
/-! The two key skips (45_keypad_timers_random.md R160, R161), and O27. -/

namespace Sys2Proof.Machine

theorem pcEffect_skipIf (s : State) (c : Bool) : PcEffect (if c then s.pc + 4 else s.pc + 2) s (s.skipIf c) :=
  s.skipIf_eq_setPc c ▸ pcEffect_setPc s _

theorem pcEffect_skipIf_not (s : State) (c : Bool) :
    PcEffect (if c = false then s.pc + 4 else s.pc + 2) s (s.skipIf !c) := by
  simpa only [Bool.not_eq_true'] using pcEffect_skipIf s (!c)

/-- Settles O27: each key skip is one skip on the key that the low nibble of V[X] numbers, taken down by SKP and up by SKNP. -/
theorem keySkipsTestTheLowNibble : Obligations.KeySkipsTestTheLowNibble := by
  intro x k s hk
  obtain rfl : k = lowNibble (s.getV x) := Fin.ext hk
  exact ⟨⟨_, rfl, pcEffect_skipIf s _⟩, ⟨_, rfl, pcEffect_skipIf_not s _⟩⟩

end Sys2Proof.Machine
end

section
/-! Reading and writing the timers (45_keypad_timers_random.md R163 to R165, 60_exceptions.md R184), and O46. -/

namespace Sys2Proof.Machine

theorem State.sound_iff (s : State) : s.sound = true ↔ s.st ≠ 0 := bne_iff_ne

/-- All that a write of a timer leaves alone: everything but PC, DT and ST. -/
def SameExceptPcAndTimers (s t : State) : Prop :=
  SameRegsExcept [] s t ∧ t.idx = s.idx ∧ SameMemory s t ∧ SameDisplay s t ∧ SameStack s t ∧ SameKeys s t ∧
  SameRandom s t ∧ t.err = s.err

theorem sameExceptPcAndTimers_of_pc_dt_st (s : State) (pc : Word) (dt st : Byte) :
    SameExceptPcAndTimers s { s with pc := pc, dt := dt, st := st } :=
  ⟨fun _ _ => rfl, rfl, fun _ => rfl, fun _ _ => rfl, ⟨rfl, fun _ => rfl⟩, fun _ => rfl, ⟨rfl, rfl⟩, rfl⟩

/-- Settles O46: the read is a register write of DT, and each write sets its own timer, ST with the sound output. -/
theorem timerReadsAndWrites : Obligations.TimerReadsAndWrites := by
  intro x s
  exact ⟨⟨_, rfl, registerEffect_setV s x s.dt⟩,
    ⟨s.advance.setDt (s.getV x), rfl, rfl, rfl, rfl, sameExceptPcAndTimers_of_pc_dt_st s ..⟩,
    ⟨s.advance.setSt (s.getV x), rfl, rfl, State.sound_iff _, rfl, rfl, sameExceptPcAndTimers_of_pc_dt_st s ..⟩⟩

end Sys2Proof.Machine
end

section
/-! The `STEP` command on a decoded instruction (40_step_cycle.md R91 to R95): it runs the instruction's meaning with its own byte on
the random input. -/

namespace Sys2Proof.Machine

theorem State.nextInstr_withRandIn (s : State) (bs : List Byte) : (s.withRandIn bs).nextInstr = s.nextInstr := rfl

section
variable {s : State} {i : Instr}

theorem State.fetch_decode_of_nextInstr (h : s.nextInstr = some i) : ∃ w, s.fetch = .ok w ∧ decodeWord w = .ok i := by
  cases hf : s.fetch with
  | error c => simp [State.nextInstr, hf] at h
  | ok w =>
    cases hd : decodeWord w with
    | error e => simp [State.nextInstr, hf, hd] at h
    | ok j =>
      obtain rfl : j = i := by simpa [State.nextInstr, hf, hd] using h
      exact ⟨w, rfl, hd⟩

theorem step_of_nextInstr (herr : s.err = none) (h : s.nextInstr = some i) : step s = exec i s := by
  obtain ⟨w, hfetch, hdecode⟩ := State.fetch_decode_of_nextInstr h
  exact step_of_ok herr hfetch hdecode

/-- A `STEP` that does not stall answers `OK` when its instruction's meaning leaves ERR clear; its byte does not stay on the input. -/
theorem command_step_of_exec {t : State} {rnd : Byte} (herr : s.err = none) (hs : s.stalls = false)
    (hi : s.nextInstr = some i) (he : exec i (s.withRandIn [rnd]) = .next t) (ht : t.err = none) :
    s.command (.step rnd) = (t.withRandIn s.rndIn, .ok) := by
  have hstep : step (s.withRandIn [rnd]) = .next t :=
    (step_of_nextInstr (s := s.withRandIn [rnd]) herr ((s.nextInstr_withRandIn _).trans hi)).trans he
  rw [State.command, stepCommand_of_next herr hs hstep, ht]

end

end Sys2Proof.Machine
end

section
/-! The wait for a key (45_keypad_timers_random.md R162, 40_step_cycle.md R96), and O45. -/

namespace Sys2Proof.Machine

section
variable {x : RegNum} {s : State}

theorem State.stalls_of_ldVxK (h : s.nextInstr = some (.ldVxK x)) : s.stalls = (lowestKeyDown s).isNone := by
  simp only [State.stalls, h]

section
variable (hup : ∀ k : RegNum, keyDown s k = false)
include hup

theorem exec_ldVxK_of_no_key : exec (.ldVxK x) s = .next s := by
  simp only [exec, execLdVxK, lowestKeyDown_eq_none s hup]

theorem command_step_ldVxK_of_no_key (rnd : Byte) (herr : s.err = none) (hi : s.nextInstr = some (.ldVxK x)) :
    s.command (.step rnd) = (s, .halted) := by
  have hstall : s.stalls = true := by rw [State.stalls_of_ldVxK hi, lowestKeyDown_eq_none s hup, Option.isNone_none]
  exact stepCommand_of_stall herr hstall rnd

end

section
variable {k : RegNum} (hdown : keyDown s k = true) (hleast : ∀ j : RegNum, j < k → keyDown s j = false)
include hdown hleast

theorem exec_ldVxK_of_least_key : exec (.ldVxK x) s = .next (s.advance.setV x (BitVec.ofNat 8 k.val)) := by
  simp only [exec, execLdVxK, lowestKeyDown_eq_some s k hdown hleast]

/-- The byte on the random input does not change which key is the least, so the step stores it too. -/
theorem command_step_ldVxK_of_least_key (rnd : Byte) (herr : s.err = none) (hi : s.nextInstr = some (.ldVxK x)) :
    (s.command (.step rnd)).2 = .ok := by
  have hrun : s.stalls = false := by
    rw [State.stalls_of_ldVxK hi, lowestKeyDown_eq_some s k hdown hleast, Option.isNone_some]
  have hexec := exec_ldVxK_of_least_key (x := x) (s := s.withRandIn [rnd]) hdown hleast
  rw [command_step_of_exec herr hrun hi hexec herr]

end

end

/-- Settles O45: whether a least key is down decides both the meaning and whether the `STEP` stalls. -/
theorem waitForKeyStallsOrStoresTheLeastKey : Obligations.WaitForKeyStallsOrStoresTheLeastKey := by
  refine fun x s => ⟨fun hup => ?stall, fun k hdown hleast => ?store⟩
  case stall => exact ⟨exec_ldVxK_of_no_key hup, command_step_ldVxK_of_no_key hup⟩
  case store =>
    exact ⟨⟨_, exec_ldVxK_of_least_key hdown hleast, registerEffect_setV s x _⟩,
      command_step_ldVxK_of_least_key hdown hleast⟩

end Sys2Proof.Machine
end

section
/-! A `STEP` that executes RND (45_keypad_timers_random.md R166, 60_exceptions.md R185), and O57. -/

namespace Sys2Proof.Machine

/-- One random byte more is counted as used, with the random input as it was: what a `STEP` that executes RND does to the fields
that are the model's own (log entry 2). -/
def State.countRand (s : State) : State := s.useRand.withRandIn s.rndIn

/-- Such a `STEP` is the write of the masked byte to V[X], the count apart. -/
theorem command_step_rnd {x : RegNum} {nn : Byte} {s : State} (r : Byte) (herr : s.err = none)
    (hi : s.nextInstr = some (.rnd x nn)) :
    s.command (.step r) = (s.countRand.advance.setV x (r &&& nn), .ok) := by
  have hrun : s.stalls = false := by simp only [State.stalls, hi]
  exact command_step_of_exec herr hrun hi rfl herr

/-- Settles O57: apart from the count, which is not state of CORE, the `STEP` writes the masked byte to V[X] and advances PC. -/
theorem stepMasksTheByteOnTheRandomInput : Obligations.StepMasksTheByteOnTheRandomInput := by
  intro x nn r s herr hi
  obtain ⟨hvalue, hregs, hidx, hpc, hmem, hdisplay, hstack, htimers, hkeys, -, hclear⟩ :=
    registerEffect_setV s.countRand x (r &&& nn)
  refine ⟨_, command_step_rnd r herr hi, fun k _ => ?bits, hregs, hidx, hpc, hmem, hdisplay, hstack, htimers, hkeys,
    hclear.trans herr⟩
  case bits => rw [hvalue, BitVec.getLsbD_and]

end Sys2Proof.Machine
end

section
/-! The causes a step can raise and the `info` of each (60_exceptions.md R171, R172), and O13. -/

namespace Sys2Proof.Machine

/-! ## Fetch: PC is out of range exactly when it fails -/

section
variable {s : State}

theorem State.fetch_error_cause {c : Cause} (h : s.fetch = .error c) :
    s.pc.toNat > 0xFFE ∧ c = .memoryOutOfBounds (max s.pc.toNat 0x1000) := by
  have hpc : s.pc.toNat > 0xFFE := by
    rcases s.fetch_cases with ⟨hpc, -⟩ | ⟨hpc, -⟩ | ⟨-, hf⟩
    · omega
    · omega
    · nomatch hf.symm.trans h
  have hfetch := State.fetch_of_address_above (s := s) ⟨s.pc.toNat + 1, by simp, by omega⟩
  exact ⟨hpc, Except.error.inj (h.symm.trans hfetch)⟩

theorem State.pc_le_of_fetch_ok {w : Word} (h : s.fetch = .ok w) : s.pc.toNat ≤ 0xFFE := by
  rcases s.fetch_cases with ⟨-, hf⟩ | ⟨-, hf⟩ | ⟨hpc, -⟩
  · nomatch hf.symm.trans h
  · nomatch hf.symm.trans h
  · exact hpc

end

/-! ## The causes of a failing step -/

/-- What can fail in a step from `s`, in the order of the step: fetch, decode, then the instruction's own check (R173). -/
inductive StepCause (s : State) : Cause → Prop where
  | fetch (hpc : s.pc.toNat > 0xFFE) : StepCause s (.memoryOutOfBounds (max s.pc.toNat 0x1000))
  | decode {w : Word} (hf : s.fetch = .ok w) (hd : decodeWord w = .error (.illegalOpcode w)) : StepCause s (.illegalOpcode w)
  | data (hpc : s.pc.toNat ≤ 0xFFE) : StepCause s (.memoryOutOfBounds (max s.idx.toNat 0x1000))
  | push (hsp : s.sp = 16) : StepCause s (.stackOverflow s.sp)
  | pop (hsp : s.sp = 0) : StepCause s (.stackUnderflow s.sp)

/-- An instruction whose block check passes leaves ERR alone, or it is a CALL or a RET that raises. -/
theorem exec_err_or_stack_raise {i : Instr} {s t : State} (hfits : s.blockError (dataLength i) = none)
    (he : exec i s = .next t) : t.err = s.err ∨ ∃ c, StepCause s c ∧ t = s.raise c := by
  cases i with
  | call nnn =>
    rcases execCall_cases nnn s with ⟨hsp, e⟩ | ⟨_, e⟩ | ⟨-, e⟩ <;> cases e.symm.trans he
    · exact .inr ⟨_, .push hsp, rfl⟩
    · exact .inl rfl
  | ret =>
    rcases execRet_cases s with ⟨hsp, e⟩ | ⟨_, -, e⟩ | ⟨-, e⟩ <;> cases e.symm.trans he
    · exact .inr ⟨_, .pop hsp, rfl⟩
    · exact .inl rfl
  | drw | ldBVx | storeVx =>
    simp only [dataLength] at hfits
    simp only [exec, execDrw, execLdBVx, execStoreVx, hfits] at he
    cases he
    exact .inl rfl
  | loadVx x =>
    simp only [dataLength] at hfits
    simp only [exec, execLoadVx, hfits] at he
    cases he
    rw [State.setVs_frame]
    exact .inl rfl
  | ldVxK x =>
    rcases execLdVxK_cases x s with ⟨-, e⟩ | ⟨_, -, -, e⟩ <;> cases e.symm.trans he <;> exact .inl rfl
  | _ => cases he; exact .inl rfl

/-- A meaning leaves ERR alone, or raises one of the three causes that are its own: a full stack, an empty stack, a data address
out of range. -/
theorem exec_err_or_raise {i : Instr} {s t : State} (hpc : s.pc.toNat ≤ 0xFFE) (he : exec i s = .next t) :
    t.err = s.err ∨ ∃ c, StepCause s c ∧ t = s.raise c := by
  rcases s.blockError_cases (dataLength i) with ⟨hfits, -⟩ | ⟨hout, -⟩
  · exact exec_err_or_stack_raise hfits he
  · cases (exec_of_blockError hout).symm.trans he
    exact .inr ⟨_, .data hpc, rfl⟩

theorem step_err_none_or_raise {s t : State} (h : step s = .next t) :
    t.err = none ∨ ∃ c, StepCause s c ∧ t = s.raise c := by
  obtain ⟨herr, ⟨c, hf, ht⟩ | ⟨w, hf, hd, ht⟩ | ⟨w, i, hf, -, he⟩⟩ := step_cases h
  · obtain ⟨hpc, rfl⟩ := State.fetch_error_cause hf
    exact .inr ⟨_, .fetch hpc, ht⟩
  · exact .inr ⟨_, .decode hf hd, ht⟩
  · exact (exec_err_or_raise (State.pc_le_of_fetch_ok hf) he).imp_left (·.trans herr)

theorem step_record_cause {s t : State} {r : ErrRecord} (h : step s = .next t) (hr : t.err = some r) :
    StepCause s r.cause ∧ r.pc = s.pc := by
  obtain hnone | ⟨c, hc, rfl⟩ := step_err_none_or_raise h
  · nomatch hnone.symm.trans hr
  · cases hr
    exact ⟨hc, rfl⟩

/-! ## The outcome of the `STEP` -/

/-- A `STEP` after which ERR holds a record answers that record, whether it was latched before or is new. -/
theorem stepCommand_answers_record {s t : State} {rnd : Byte} {o : Response} {r : ErrRecord} (h : s.stepCommand rnd = (t, o))
    (hr : t.err = some r) : o = .error r := by
  cases herr : s.err with
  | some q =>
    cases (stepCommand_of_latched herr rnd).symm.trans h
    cases herr.symm.trans hr
    rfl
  | none =>
    cases hs : s.stalls with
    | true =>
      cases (stepCommand_of_stall herr hs rnd).symm.trans h
      nomatch herr.symm.trans hr
    | false =>
      cases hstep : step (s.withRandIn [rnd]) with
      | next u =>
        cases (stepCommand_of_next herr hs hstep).symm.trans h
        rw [State.withRandIn_err] at hr
        rw [hr]
      | fault f =>
        cases (stepCommand_of_fault herr hs hstep).symm.trans h
        nomatch herr.symm.trans hr
      | refused f =>
        simp only [State.stepCommand, herr, hs, hstep] at h
        cases h
        nomatch herr.symm.trans hr

/-! ## The obligation -/

/-- Settles O13: one case for each cause a step can raise, `ProgramTooLarge` not being one; PC and I fit 16 bits, so the address
reported does. -/
theorem errorRecordContents : Obligations.ErrorRecordContents := by
  refine ⟨fun s t r h hr => ?record, fun s t rnd o r h hr => stepCommand_answers_record h hr⟩
  case record =>
    have hpcLt := s.pc.isLt
    have hidxLt := s.idx.isLt
    obtain ⟨cause, pc⟩ := r
    obtain ⟨hcause, hpc⟩ := step_record_cause h hr
    refine ⟨hpc, ?_⟩
    cases hcause with
    | fetch hout => exact ⟨by omega, by omega, .inl ⟨hout, rfl⟩⟩
    | decode hf hd => exact ⟨hf, hd⟩
    | data hin => exact ⟨by omega, by omega, .inr ⟨hin, rfl⟩⟩
    | push hsp => exact ⟨hsp, rfl⟩
    | pop hsp => exact ⟨hsp, rfl⟩

end Sys2Proof.Machine
end

section
/-! The commands that move the timers and the keypad (60_exceptions.md R181, R182): O50 and O51. -/

namespace Sys2Proof.Machine

/-- The floor of a timer at 0 is the floor of natural subtraction. -/
theorem toNat_timerTick (b : Byte) : (timerTick b).toNat = b.toNat - 1 := by
  unfold timerTick
  split <;> bv_omega

theorem command_tick_of_clear {s : State} (herr : s.err = none) :
    s.command .tick = ((s.setDt (timerTick s.dt)).setSt (timerTick s.st), .ok) := by
  simp only [State.command, State.tick, herr]

/-- Settles O50: with ERR clear a `TICK` writes the two timers, each from its own value. -/
theorem tickCountsTheTimersDown : Obligations.TickCountsTheTimersDown := by
  refine fun s => ⟨fun herr => ?clear, fun herr => ?latched⟩
  case clear => exact ⟨_, command_tick_of_clear herr, toNat_timerTick s.dt, toNat_timerTick s.st, rfl⟩
  case latched =>
    obtain ⟨r, hr⟩ := Option.ne_none_iff_exists'.1 herr
    exact tick_of_latched hr

theorem keyDown_keyWrite (s : State) (k j : RegNum) (down : Bool) :
    keyDown (s.keyWrite k down) j = if j = k then down else keyDown s j := by
  simp only [keyDown, State.keyWrite, Vector.getElem_set, Fin.ext_iff, eq_comm]

/-- Settles O51: the command never looks at ERR, and its one update is of K. -/
theorem keyWriteSetsOneFlag : Obligations.KeyWriteSetsOneFlag :=
  fun s k b => ⟨s.keyWrite k b, rfl, fun j => keyDown_keyWrite s k j b, rfl⟩

end Sys2Proof.Machine
end

section
/-! `LOAD` (70_reset_and_hazards.md R203), and O49. -/

namespace Sys2Proof.Machine

section
variable {s : State} {bytes : List Byte}

theorem command_load_of_fits (herr : s.err = none) (hlen : bytes.length ≤ 3584) :
    s.command (.load bytes) = (s.loadProgram bytes, .ok) := by
  simp only [State.command, State.loadCommand, herr]
  exact if_neg (Nat.not_lt.2 hlen)

theorem command_load_of_too_large (herr : s.err = none) (hlen : bytes.length > 3584) :
    s.command (.load bytes) = (s, .programTooLarge bytes.length) := by
  simp only [State.command, State.loadCommand, herr]
  exact if_pos hlen

section
variable (hwf : s.mem.wf) (hlen : bytes.length ≤ 3584)
include hwf hlen

theorem get_loadProgram (a : Nat) : (s.loadProgram bytes).mem.get a =
    if 0x200 ≤ a ∧ a < 0x200 + bytes.length then bytes.getD (a - 0x200) 0 else s.mem.get a :=
  Memory.get_setBlock hwf (Nat.add_le_add_left hlen 0x200) a

theorem get_loadProgram_of_lt {j : Nat} (hj : j < bytes.length) :
    (s.loadProgram bytes).mem.get (0x200 + j) = bytes[j] := by
  rw [get_loadProgram hwf hlen, if_pos (by omega), Nat.add_sub_cancel_left, List.getD_eq_getElem _ _ hj]

theorem sameMemoryOutside_loadProgram : SameMemoryOutside 0x200 bytes.length s (s.loadProgram bytes) :=
  fun a ha => (get_loadProgram hwf hlen a).trans (if_neg ha)

end

end

/-- Settles O49: with ERR clear the length alone decides between the whole copy and the refusal. -/
theorem loadCopiesTheProgram : Obligations.LoadCopiesTheProgram := by
  refine fun s bytes hwf => ⟨fun herr hlen => ?fits, command_load_of_too_large, fun herr => ?latched⟩
  case fits =>
    exact ⟨_, command_load_of_fits herr hlen, fun _ hj => get_loadProgram_of_lt hwf hlen hj,
      sameMemoryOutside_loadProgram hwf hlen, rfl⟩
  case latched =>
    obtain ⟨r, hr⟩ := Option.ne_none_iff_exists'.1 herr
    exact congrArg Prod.fst (loadCommand_of_latched hr bytes)

end Sys2Proof.Machine
end

section
/-! The decoder and the encoder undo each other (30_encoding.md R70 to R76): O1, O2 and O6. -/

namespace Sys2Proof

/-- Group by group: the dispatch reads in the laid-out word the fields it was laid out from. -/
theorem decodeWord_encode {i : Instr} (hwf : i.wellFormed = true) : decodeWord (encode i) = .ok i := by
  cases i with
  | cls | ret => rfl
  | jp | call | ldI | jpV0 =>
    simp only [encode, decodeWord, fieldOp_formatA, fieldNnn_formatA]
    rfl
  | seVxNn | sneVxNn | ldVxNn | addVxNn | rnd =>
    simp only [encode, decodeWord, fieldOp_formatXB, fieldX_formatXB, fieldNn_formatXB]
    rfl
  | seVxVy | sneVxVy =>
    simp only [encode, decodeWord, fieldOp_formatXY, fieldX_formatXY, fieldY_formatXY, fieldN_formatXY]
    rfl
  | ldVxVy | orVxVy | andVxVy | xorVxVy | addVxVy | subVxVy | shrVx | subnVxVy | shlVx =>
    simp only [encode, decodeWord_of_op_8 (fieldOp_formatXY ..), decodeGroup8, fieldX_formatXY, fieldY_formatXY,
      fieldN_formatXY]
    rfl
  | drw x y n =>
    have hn : (BitVec.ofNat 4 n).toNat = n := Nat.mod_eq_of_lt (Nat.lt_succ_of_le (of_decide_eq_true hwf))
    simp only [encode, decodeWord, fieldOp_formatXY, fieldX_formatXY, fieldY_formatXY, fieldN_formatXY, hn]
    rfl
  | skp | sknp =>
    simp only [encode, decodeWord_of_op_E (fieldOp_formatXB ..), decodeGroupE, fieldX_formatXB, fieldNn_formatXB]
    rfl
  | ldVxDt | ldVxK | ldDtVx | ldStVx | addIVx | ldFVx | ldBVx | storeVx | loadVx =>
    simp only [encode, decodeWord_of_op_F (fieldOp_formatXB ..), decodeGroupF, fieldX_formatXB, fieldNn_formatXB]
    rfl

theorem decodeBytes_bytesOfWord {w : Word} {i : Instr} (h : decodeWord w = .ok i) (rest : List Byte) :
    decodeBytes (bytesOfWord w ++ rest) = .ok (i, rest) := by
  simp only [bytesOfWord, List.cons_append, List.nil_append, decodeBytes, wordOfBytes_bytesOfWord, h]

/-- Settles O1: the word decodes to the instruction, and its two bytes are read back as that word. -/
theorem decodeOfEncodeIsTheInstruction : Obligations.DecodeOfEncodeIsTheInstruction :=
  fun _ hwf => ⟨decodeWord_encode hwf, decodeBytes_bytesOfWord (decodeWord_encode hwf)⟩

theorem decodeWord_of_op_D {w : Word} (h : fieldOp w = 0xD#4) :
    decodeWord w = .ok (.drw (fieldX w) (fieldY w) (fieldN w).toNat) := by
  rw [decodeWord, h]
  rfl

/-- A word that decodes to `DXYN` has its encoding's `OP`, so its row count is the nibble of that group (R72). -/
theorem wellFormed_of_decodeWord {w : Word} {i : Instr} (h : decodeWord w = .ok i) : i.wellFormed = true := by
  cases i with
  | drw x y n =>
    have hop : fieldOp w = 0xD#4 := encode_of_decodeWord h ▸ fieldOp_formatXY ..
    obtain ⟨-, -, rfl⟩ := Instr.drw.inj (Except.ok.inj (h.symm.trans (decodeWord_of_op_D hop)))
    exact decide_eq_true (Nat.le_of_lt_succ (fieldN w).isLt)
  | _ => rfl

/-- Settles O2: the decoder makes the row count from a nibble, and each group's layout puts the decoded fields back. -/
theorem encodeOfDecodeIsTheWord : Obligations.EncodeOfDecodeIsTheWord :=
  fun _ _ h => ⟨wellFormed_of_decodeWord h, encode_of_decodeWord h⟩

/-- Settles O6: the dispatch evaluates on each of the written words. -/
theorem sampleWordsDecode : Obligations.SampleWordsDecode := by
  unfold Obligations.SampleWordsDecode
  decide

end Sys2Proof
end

section
/-! What an instruction does, said once for all 34: it raises the one error that the exception clauses give it (60_exceptions.md
R171), or it completes; and what completing leaves in ERR and PC. -/

namespace Sys2Proof.Machine

/-! ## The two outcomes of an instruction -/

/-- The state an instruction leaves when it raises nothing. The instructions that check something or wait are written out as updates
of the state, CALL's stack entry being meant for SP below 16; every other instruction has one outcome, and it is that one. -/
def State.completed (s : State) (i : Instr) : State :=
  match i with
  | .call nnn => (s.push (lowNibble s.sp) (s.pc + 2)).setPc (addrOperand nnn)
  | .ret => s.pop.setPc (s.stack.getD (s.sp.toNat - 1) 0)
  | .drw x y n => s.drawn x y n
  | .ldBVx x => s.advance.writeBlock (bcdDigits (s.getV x))
  | .storeVx x => s.advance.writeBlock (registersThrough s x)
  | .loadVx x => { s with v := (s.advance.setVs 0 (s.readBlock (x.val + 1))).v, pc := s.pc + 2 }
  | .ldVxK x =>
    { s with
      v := (lowestKeyDown s).elim s.v fun k => (s.setV x (BitVec.ofNat 8 k)).v
      pc := (lowestKeyDown s).elim s.pc fun _ => s.pc + 2 }
  | i =>
    match exec i s with
    | .next t => t
    | .fault _ | .refused _ => s

theorem completed_loadVx (x : RegNum) (s : State) :
    s.completed (.loadVx x) = s.advance.setVs 0 (s.readBlock (x.val + 1)) :=
  (State.setVs_frame s.advance 0 (s.readBlock (x.val + 1))).symm

/-- The wait for a key completes with the state as it was, or with a key that is down stored in its register (R162). -/
theorem completed_ldVxK_cases (x : RegNum) (s : State) :
    ((∀ k, keyDown s k = false) ∧ s.completed (.ldVxK x) = s) ∨
    (∃ k, keyDown s k = true ∧ s.completed (.ldVxK x) = s.advance.setV x (BitVec.ofNat 8 k.val)) := by
  obtain ⟨hnone, hup⟩ | ⟨k, hsome, hdown, -⟩ := lowestKeyDown_cases s
  · exact .inl ⟨hup, by simp only [State.completed, hnone, Option.elim_none]⟩
  · exact .inr ⟨k, hdown, by simp only [State.completed, hsome, Option.elim_some]; rfl⟩

theorem State.stack_getD_of_lt {s : State} {k : Nat} (h : k < 16) : s.stack.getD k 0 = s.stack[k] :=
  dif_pos (s.stack.size_toArray.symm ▸ h)

theorem exec_ldVxK (x : RegNum) (s : State) : exec (.ldVxK x) s = .next (s.completed (.ldVxK x)) := by
  cases h : lowestKeyDown s with
  | none => simp only [exec, execLdVxK, State.completed, h, Option.elim_none]
  | some k =>
    simp only [exec, execLdVxK, State.completed, h, Option.elim_some]
    rfl

/-- An instruction raises its error of R171, or completes, or is a CALL or a RET that meets an SP that CORE never has. -/
theorem exec_cases (i : Instr) (s : State) :
    (∃ c, raisedAtExecute i s = some c ∧ exec i s = .next (s.raise c)) ∨
    (raisedAtExecute i s = none ∧ exec i s = .next (s.completed i)) ∨
    (s.sp.toNat > 16 ∧ exec i s = .fault (.stackPointerRange s.sp)) := by
  cases i with
  | call nnn =>
    rcases execCall_cases nnn s with ⟨hfull, -⟩ | ⟨hlt, hpush⟩ | ⟨habove, hfault⟩
    · exact .inl ⟨_, if_pos hfull, exec_call_of_full nnn hfull⟩
    · have hne : s.sp ≠ 16 := fun h => absurd (h ▸ hlt) (by decide)
      have hentry : lowNibble s.sp = ⟨s.sp.toNat, hlt⟩ := Fin.ext (Nat.mod_eq_of_lt hlt)
      exact .inr (.inl ⟨if_neg hne, by rw [State.completed, hentry]; exact hpush⟩)
    · exact .inr (.inr ⟨habove, hfault⟩)
  | ret =>
    rcases execRet_cases s with ⟨hempty, -⟩ | ⟨hlt, hne, hpop⟩ | ⟨habove, hfault⟩
    · exact .inl ⟨_, if_pos hempty, exec_ret_of_empty hempty⟩
    · exact .inr (.inl ⟨if_neg hne, by rw [State.completed, State.stack_getD_of_lt hlt]; exact hpop⟩)
    · exact .inr (.inr ⟨habove, hfault⟩)
  | drw x y n =>
    by_cases h : n > 0 ∧ s.idx.toNat + n - 1 > 0xFFF
    · exact .inl ⟨_, if_pos h, exec_drw_of_above h.1 h.2⟩
    · exact .inr (.inl ⟨if_neg h, exec_drw_of_le (by omega)⟩)
  | ldBVx x =>
    by_cases h : s.idx.toNat + 2 > 0xFFF
    · exact .inl ⟨_, if_pos h, exec_of_last_address_above rfl h⟩
    · exact .inr (.inl ⟨if_neg h, exec_ldBVx_of_le x (Nat.le_of_not_lt h)⟩)
  | storeVx x =>
    by_cases h : s.idx.toNat + x.val > 0xFFF
    · exact .inl ⟨_, if_pos h, exec_of_last_address_above rfl h⟩
    · exact .inr (.inl ⟨if_neg h, exec_storeVx_of_le (Nat.le_of_not_lt h)⟩)
  | loadVx x =>
    by_cases h : s.idx.toNat + x.val > 0xFFF
    · exact .inl ⟨_, if_pos h, exec_of_last_address_above rfl h⟩
    · exact .inr (.inl ⟨if_neg h, completed_loadVx x s ▸ exec_loadVx_of_le (Nat.le_of_not_lt h)⟩)
  | ldVxK x => exact .inr (.inl ⟨rfl, exec_ldVxK x s⟩)
  | _ => exact .inr (.inl ⟨rfl, rfl⟩)

theorem exec_raises_or_completes {i : Instr} {s t : State} (he : exec i s = .next t) :
    (∃ c, raisedAtExecute i s = some c ∧ t = s.raise c) ∨ (raisedAtExecute i s = none ∧ t = s.completed i) := by
  obtain ⟨c, hc, e⟩ | ⟨hnone, e⟩ | ⟨-, e⟩ := exec_cases i s <;> cases e.symm.trans he
  · exact .inl ⟨c, hc, rfl⟩
  · exact .inr ⟨hnone, rfl⟩

/-- With an SP that CORE reaches every instruction raises or completes (log entry 4). -/
theorem exec_of_sp_le {s : State} (hsp : s.sp.toNat ≤ 16) (i : Instr) :
    (∃ c, raisedAtExecute i s = some c ∧ exec i s = .next (s.raise c)) ∨
    (raisedAtExecute i s = none ∧ exec i s = .next (s.completed i)) := by
  obtain h | h | ⟨habove, -⟩ := exec_cases i s
  · exact .inl h
  · exact .inr h
  · omega

/-! ## ERR and PC of an instruction that completes -/

section
variable (i : Instr) (s : State)

theorem completed_err : (s.completed i).err = s.err := by
  cases i <;> rfl

/-- PC after an instruction that completes is 10_state.md R25's. -/
theorem completed_pc : (s.completed i).pc = pcAfter i s := by
  cases i with
  | seVxNn x nn => exact (pcEffect_skipIf_beq s (s.getV x) nn).1
  | seVxVy x y n => exact (pcEffect_skipIf_beq s (s.getV x) (s.getV y)).1
  | sneVxNn x nn => exact (pcEffect_skipIf_bne s (s.getV x) nn).1.trans (ite_not ..).symm
  | sneVxVy x y n => exact (pcEffect_skipIf_bne s (s.getV x) (s.getV y)).1.trans (ite_not ..).symm
  | skp x => exact (pcEffect_skipIf s _).1
  | sknp x =>
    refine (pcEffect_skipIf_not s (keyDown s (lowNibble (s.getV x)))).1.trans ?_
    cases h : keyDown s (lowNibble (s.getV x)) <;> simp [pcAfter, h]
  | ldVxK x =>
    obtain ⟨hup, e⟩ | ⟨k, hdown, e⟩ := completed_ldVxK_cases x s
    · exact (congrArg State.pc e).trans (if_pos hup).symm
    · have hnot : ¬ ∀ k, keyDown s k = false := fun hup => by simp [hup k] at hdown
      exact (congrArg State.pc e).trans (if_neg hnot).symm
  | _ => rfl

end

theorem toNat_ite_le {c : Prop} [Decidable c] {a b : Word} {n : Nat} (ha : a.toNat ≤ n) (hb : b.toNat ≤ n) :
    (if c then a else b).toNat ≤ n := by
  split <;> assumption

/-- The largest PC is the largest target of `BNNN`, 0xFFF + 0xFF (R25). -/
theorem pcAfter_le {s : State} (hinv : s.Inv) (hpc : s.pc.toNat ≤ 0xFFE) (i : Instr) : (pcAfter i s).toNat ≤ 0x10FE := by
  have hself : s.pc.toNat ≤ 0x10FE := hinv.pc
  have hnext : (s.pc + 2).toNat ≤ 0x10FE := by bv_omega
  have hskip : (s.pc + 4).toNat ≤ 0x10FE := by bv_omega
  cases i with
  | jp nnn | call nnn =>
    have htarget := toNat_addrOperand nnn
    have hlt := nnn.isLt
    exact htarget.trans_le (by omega)
  | ret =>
    have hsp := hinv.sp
    have hlt : s.sp.toNat - 1 < 16 := by omega
    have hentry : pcAfter .ret s = s.stack[s.sp.toNat - 1] := State.stack_getD_of_lt hlt
    exact hentry ▸ (hinv.stack ⟨_, hlt⟩).trans (by decide)
  | jpV0 nnn =>
    have htarget := toNat_offsetTarget s nnn
    have hlt := nnn.isLt
    have hoffset := (s.getV 0).isLt
    exact htarget.trans_le (by omega)
  | seVxNn | sneVxNn | seVxVy | sneVxVy | skp => exact toNat_ite_le hskip hnext
  | sknp => exact toNat_ite_le hnext hskip
  | ldVxK => exact toNat_ite_le hself hnext
  | _ => exact hnext

/-- Settles O14: an instruction that completes leaves R25's PC, one that raises leaves its own address. -/
theorem pcAfterEveryInstruction : Obligations.PcAfterEveryInstruction := by
  intro i s t herr he
  obtain ⟨c, -, rfl⟩ | ⟨-, rfl⟩ := exec_raises_or_completes he
  · exact ⟨nofun, fun _ => rfl, fun hinv _ => hinv.pc⟩
  · have hclear : (s.completed i).err = none := (completed_err i s).trans herr
    rw [completed_pc]
    exact ⟨fun _ => rfl, fun h => absurd hclear h, fun hinv hpc => pcAfter_le hinv hpc i⟩

end Sys2Proof.Machine
end

section
/-! When a step has a next state and what it raises (40_step_cycle.md R91 to R99, 60_exceptions.md R171): O7, O10, O12 and O15. -/

namespace Sys2Proof.Machine

/-- Settles O7: the bytes at PC are the word fetched, and a step runs what that word decodes to. -/
theorem stepRunsTheDecodedInstruction : Obligations.StepRunsTheDecodedInstruction := by
  intro s i herr hpc hi
  obtain ⟨habove, -⟩ | ⟨habove, -⟩ | ⟨-, hfetch⟩ := s.fetch_cases
  · omega
  · omega
  · exact step_of_ok herr hfetch hi

/-- With ERR clear a step raises an error of fetch or decode, or is the meaning of an instruction. -/
theorem step_cases_of_clear {s : State} (herr : s.err = none) :
    (∃ c, step s = .next (s.raise c)) ∨ ∃ i, s.nextInstr = some i ∧ step s = exec i s := by
  cases hfetch : s.fetch with
  | error c => exact .inl ⟨c, step_of_error herr hfetch⟩
  | ok w =>
    cases hdecode : decodeWord w with
    | error e => exact .inl ⟨_, step_of_illegal herr hfetch hdecode⟩
    | ok i => exact .inr ⟨i, by simp only [State.nextInstr, hfetch, hdecode], step_of_ok herr hfetch hdecode⟩

/-- Settles O10: a step with ERR clear answers a next state or the fault of an SP out of range. -/
theorem stepFaultsExactlyWhenAnErrorIsLatched : Obligations.StepFaultsExactlyWhenAnErrorIsLatched := by
  refine fun s r => ⟨fun h => ?_, step_of_latched⟩
  cases herr : s.err with
  | some q =>
    cases (step_of_latched herr).symm.trans h
    rfl
  | none =>
    obtain ⟨c, hstep⟩ | ⟨i, -, hstep⟩ := step_cases_of_clear herr
    · nomatch hstep.symm.trans h
    · obtain ⟨c, -, e⟩ | ⟨-, e⟩ | ⟨-, e⟩ := exec_cases i s <;> nomatch e.symm.trans (hstep.symm.trans h)

theorem fetch_fails_iff (s : State) : (∃ c, s.fetch = .error c) ↔ s.pc.toNat > 0xFFE := by
  constructor
  · rintro ⟨c, hfetch⟩
    exact (State.fetch_error_cause hfetch).1
  · intro hpc
    exact ⟨_, State.fetch_of_address_above ⟨s.pc.toNat + 1, by simp, by omega⟩⟩

theorem tick_err (s : State) : s.tick.err = s.err := by
  unfold State.tick
  split <;> rfl

/-- Settles O12: an instruction that raises does so with the table's error, and one that completes leaves ERR as it was. -/
theorem errorsRaisedByEachPart : Obligations.ErrorsRaisedByEachPart := by
  refine ⟨fetch_fails_iff, fun i s hsp herr => ?execute, fun s k b => ⟨tick_err s, s.keyWrite_err k b⟩⟩
  case execute =>
    obtain ⟨c, hc, e⟩ | ⟨hnone, e⟩ := exec_of_sp_le hsp i
    · exact ⟨_, e, by rw [hc]; rfl⟩
    · exact ⟨_, e, by rw [hnone, completed_err, herr]; rfl⟩

theorem exists_step_next {s : State} (herr : s.err = none) (hsp : s.sp.toNat ≤ 16) : ∃ t, step s = .next t := by
  obtain ⟨c, hstep⟩ | ⟨i, -, hstep⟩ := step_cases_of_clear herr
  · exact ⟨_, hstep⟩
  · obtain ⟨c, -, e⟩ | ⟨-, e⟩ := exec_of_sp_le hsp i <;> exact ⟨_, hstep.trans e⟩

/-- Settles O15: the step has a next state, with any byte on the random input, and a `STEP` that does not stall answers by its ERR. -/
theorem stepIsTotal : Obligations.StepIsTotal := by
  refine fun s herr hsp => ⟨exists_step_next herr hsp, fun rnd => ?outcome⟩
  case outcome =>
    cases hs : s.stalls with
    | true => exact ⟨s, .inr (.inl (stepCommand_of_stall herr hs rnd))⟩
    | false =>
      obtain ⟨t, hstep⟩ := exists_step_next (s := s.withRandIn [rnd]) herr hsp
      have hcommand := stepCommand_of_next herr hs hstep
      cases ht : t.err with
      | none => exact ⟨_, .inl (by rw [State.command, hcommand, ht])⟩
      | some r => exact ⟨_, .inr (.inr ⟨r, by rw [State.command, hcommand, ht]⟩)⟩

end Sys2Proof.Machine
end

section
/-! A `STEP` that does not execute CXNN and the byte on the random input (60_exceptions.md R185): O16. -/

namespace Sys2Proof.Machine

/-- An outcome with the random input of its next state replaced. -/
def withRandInAfter (bs : List Byte) : Host.Outcome State Fault Refusal → Host.Outcome State Fault Refusal
  | .next t => .next (t.withRandIn bs)
  | .fault f => .fault f
  | .refused r => .refused r

@[simp] theorem State.blockError_withRandIn (s : State) (bs : List Byte) (n : Nat) :
    (s.withRandIn bs).blockError n = s.blockError n := rfl

@[simp] theorem lowestKeyDown_withRandIn (s : State) (bs : List Byte) : lowestKeyDown (s.withRandIn bs) = lowestKeyDown s := rfl

/-- No instruction but CXNN reads the random input or writes it. -/
theorem exec_withRandIn {i : Instr} (hi : ∀ x nn, i ≠ .rnd x nn) (s : State) (bs : List Byte) :
    exec i (s.withRandIn bs) = withRandInAfter bs (exec i s) := by
  cases i with
  | rnd x nn => exact absurd rfl (hi x nn)
  | call nnn =>
    change (if s.sp = 16 then _ else if h : s.sp.toNat < 16 then _ else _) = withRandInAfter bs (execCall nnn s)
    unfold execCall
    split_ifs <;> rfl
  | ret =>
    change (if s.sp = 0 then _ else if h : s.sp.toNat - 1 < 16 then _ else _) = withRandInAfter bs (execRet s)
    unfold execRet
    split_ifs <;> rfl
  | drw x y n =>
    simp only [exec, execDrw, State.blockError_withRandIn]
    cases s.blockError n <;> rfl
  | ldBVx x =>
    simp only [exec, execLdBVx, State.blockError_withRandIn]
    cases s.blockError 3 <;> rfl
  | storeVx x =>
    simp only [exec, execStoreVx, State.blockError_withRandIn]
    cases s.blockError (blockLength x) <;> rfl
  | loadVx x =>
    simp only [exec, execLoadVx, State.blockError_withRandIn]
    cases s.blockError (blockLength x) with
    | none => exact congrArg Host.Outcome.next (State.setVs_withRandIn s.advance 0 (s.readBlock (blockLength x)) bs)
    | some c => rfl
  | ldVxK x =>
    simp only [exec, execLdVxK, lowestKeyDown_withRandIn]
    cases lowestKeyDown s <;> rfl
  | _ => rfl

theorem step_withRandIn {s : State} (hi : ∀ x nn, s.nextInstr ≠ some (.rnd x nn)) (bs : List Byte) :
    step (s.withRandIn bs) = withRandInAfter bs (step s) := by
  cases herr : s.err with
  | some r => rw [step_of_latched herr, step_of_latched (s := s.withRandIn bs) herr]; rfl
  | none =>
    cases hfetch : s.fetch with
    | error c => rw [step_of_error herr hfetch, step_of_error (s := s.withRandIn bs) herr hfetch]; rfl
    | ok w =>
      cases hdecode : decodeWord w with
      | error e =>
        rw [step_of_illegal herr hfetch hdecode, step_of_illegal (s := s.withRandIn bs) herr hfetch hdecode]; rfl
      | ok i =>
        have hnot : ∀ x nn, i ≠ .rnd x nn := by
          rintro x nn rfl
          exact hi x nn (by simp only [State.nextInstr, hfetch, hdecode])
        rw [step_of_ok herr hfetch hdecode, step_of_ok (s := s.withRandIn bs) herr hfetch hdecode, exec_withRandIn hnot]

/-- Settles O16: the two steps differ in the random input of their next states alone, and a `STEP` puts the input back. -/
theorem randomByteReachesOnlyRnd : Obligations.RandomByteReachesOnlyRnd := by
  intro s r r' hi
  simp only [State.command, State.stepCommand, step_withRandIn hi]
  cases step s <;> rfl

end Sys2Proof.Machine
end

section
/-! What every instruction leaves unchanged (10_state.md R20 to R39, 20_memory.md R50): O17 to O20. An error changes ERR alone, so each
frame is one about the state that a completed instruction leaves. -/

namespace Sys2Proof.Machine

theorem completed_sameRegsExcept (i : Instr) (s : State) : SameRegsExcept (destinations i) s (s.completed i) := by
  intro r hr
  cases i with
  | ldVxNn | addVxNn | ldVxVy | orVxVy | andVxVy | xorVxVy | rnd | ldVxDt =>
    exact State.getV_setV_ne _ _ (List.ne_of_not_mem_cons hr)
  | addVxVy x y | subVxVy x y | shrVx x y | subnVxVy x y | shlVx x y =>
    obtain ⟨-, -, hregs, -⟩ := flagEffect_setVFlag s x _ _
    exact hregs r hr
  | drw x y n => exact sameRegsExcept_vf_drawn r hr
  | loadVx x =>
    have hx : ¬ r ≤ x := fun h => hr (by simpa [destinations] using h)
    rw [completed_loadVx, getV_setVs_readBlock, if_neg hx]
  | ldVxK x =>
    obtain ⟨-, e⟩ | ⟨k, -, e⟩ := completed_ldVxK_cases x s <;> rw [e]
    exact State.getV_setV_ne _ _ (List.ne_of_not_mem_cons hr)
  | _ => rfl

/-- Settles O17: a completed instruction writes its destinations with `setV` or from a block, and no other register. -/
theorem onlyDestinationRegistersChange : Obligations.OnlyDestinationRegistersChange := by
  intro i s t he
  obtain ⟨c, -, rfl⟩ | ⟨-, rfl⟩ := exec_raises_or_completes he
  · exact fun _ _ => rfl
  · exact completed_sameRegsExcept i s

/-- Settles O18: apart from the named instructions each one keeps both fields. -/
theorem onlyTheNamedInstructionsWriteMemoryAndDisplay : Obligations.OnlyTheNamedInstructionsWriteMemoryAndDisplay := by
  intro i s t he
  obtain ⟨c, -, rfl⟩ | ⟨-, rfl⟩ := exec_raises_or_completes he
  · exact ⟨fun _ _ _ => rfl, fun _ _ _ _ => rfl⟩
  · refine ⟨fun hbcd hstore => ?memory, fun hcls hdrw => ?display⟩
    case memory =>
      cases i with
      | ldBVx x => exact absurd rfl (hbcd x)
      | storeVx x => exact absurd rfl (hstore x)
      | _ => exact fun _ => rfl
    case display =>
      cases i with
      | cls => exact absurd rfl hcls
      | drw x y n => exact absurd rfl (hdrw x y n)
      | _ => exact fun _ _ => rfl

/-- Settles O19: apart from the named instructions each one keeps I, SP and STACK. -/
theorem onlyTheNamedInstructionsWriteIndexAndStack : Obligations.OnlyTheNamedInstructionsWriteIndexAndStack := by
  intro i s t he
  obtain ⟨c, -, rfl⟩ | ⟨-, rfl⟩ := exec_raises_or_completes he
  · exact ⟨fun _ _ _ => rfl, fun _ _ => rfl, fun _ _ => rfl⟩
  · refine ⟨fun hld hadd hglyph => ?index, fun hcall hret => ?depth, fun hcall => ?entries⟩
    case index =>
      cases i with
      | ldI a => exact absurd rfl (hld a)
      | addIVx x => exact absurd rfl (hadd x)
      | ldFVx x => exact absurd rfl (hglyph x)
      | _ => rfl
    case depth =>
      cases i with
      | call a => exact absurd rfl (hcall a)
      | ret => exact absurd rfl hret
      | _ => rfl
    case entries =>
      cases i with
      | call a => exact absurd rfl (hcall a)
      | _ => exact fun _ => rfl

/-- Settles O20: apart from the named instructions each one keeps the timers and the random input, and no instruction writes K. -/
theorem onlyTheNamedInstructionsTouchTimersKeysRandom : Obligations.OnlyTheNamedInstructionsTouchTimersKeysRandom := by
  intro i s t he
  obtain ⟨c, -, rfl⟩ | ⟨-, rfl⟩ := exec_raises_or_completes he
  · exact ⟨fun _ => rfl, fun _ => rfl, fun _ => rfl, fun _ => ⟨rfl, rfl⟩⟩
  · refine ⟨fun hdt => ?delay, fun hst => ?sound, ?keys, fun hrnd => ?random⟩
    case delay =>
      cases i with
      | ldDtVx x => exact absurd rfl (hdt x)
      | _ => rfl
    case sound =>
      cases i with
      | ldStVx x => exact absurd rfl (hst x)
      | _ => rfl
    case keys => cases i <;> exact fun _ => rfl
    case random =>
      cases i with
      | rnd x nn => exact absurd rfl (hrnd x nn)
      | _ => exact ⟨rfl, rfl⟩

end Sys2Proof.Machine
end

section
/-! The flags and the screen: the instructions that write VF (10_state.md R39), and a sprite drawn twice (44_display.md R153): O21 and
O44. -/

namespace Sys2Proof.Machine

theorem State.pixel_eq_false {s : State} {py px : Nat} (h : ¬ (py < 32 ∧ px < 64)) : s.pixel py px = false := by
  simp only [State.pixel, Framebuffer.pixel]
  split
  · exact BitVec.getLsbD_of_ge _ _ (by omega)
  · rfl

/-- A pixel that a draw turns off met a set bit of the sprite (R151). -/
theorem spriteCollides_iff (s : State) (x y : RegNum) (n : Nat) :
    SpriteCollides s x y n ↔ ∃ py px, s.pixel py px = true ∧ (s.drawn x y n).pixel py px = false := by
  constructor
  · rintro ⟨py, px, hpy, hpx, hset, hbit⟩
    exact ⟨py, px, hset, by rw [State.pixel_drawn hpy hpx, hset, hbit]; rfl⟩
  · rintro ⟨py, px, hset, hunset⟩
    obtain ⟨hpy, hpx⟩ : py < 32 ∧ px < 64 := by_contra fun h => by simp [State.pixel_eq_false h] at hset
    rw [State.pixel_drawn hpy hpx, hset, Bool.true_xor, Bool.not_eq_false'] at hunset
    exact ⟨py, px, hpy, hpx, hset, hunset⟩

theorem toNat_shiftedOutRight (a : Byte) : (shiftedOutRight a).toNat = a.toNat % 2 := by
  rw [shiftedOutRight_eq, BitVec.toNat_ofNat]
  omega

theorem toNat_shiftedOutLeft (a : Byte) : (shiftedOutLeft a).toNat = a.toNat / 128 := by
  rw [shiftedOutLeft_eq, BitVec.toNat_ofNat]
  omega

/-- Settles O21: the flag writers end with a write of VF, DXYN's flag being set exactly when it turns a pixel off; for every other
instruction it is the frame of the general registers. -/
theorem flagWritersAndTheirFlags : Obligations.FlagWritersAndTheirFlags := by
  refine ⟨rfl, fun i s t _ he herr => ?_⟩
  obtain ⟨c, -, rfl⟩ | ⟨-, rfl⟩ := exec_raises_or_completes he
  · nomatch herr
  cases i with
  | addVxVy x y => exact (flagEffect_setVFlag s x _ _).1.trans (carryFlag_eq_ite _ _)
  | subVxVy x y | subnVxVy x y => exact (flagEffect_setVFlag s x _ _).1.trans (noBorrowFlag_eq_ite _ _)
  | shrVx x y =>
    exact (congrArg BitVec.toNat (flagEffect_setVFlag s x _ _).1).trans (toNat_shiftedOutRight _)
  | shlVx x y =>
    exact (congrArg BitVec.toNat (flagEffect_setVFlag s x _ _).1).trans (toNat_shiftedOutLeft _)
  | drw x y n =>
    refine ⟨fun hoff => State.getV_vf_drawn_of_collides ((spriteCollides_iff s x y n).2 hoff),
      fun hon => State.getV_vf_drawn_of_not_collides fun hcollides => ?_⟩
    obtain ⟨py, px, hset, hunset⟩ := (spriteCollides_iff s x y n).1 hcollides
    exact Bool.false_ne_true (hunset.symm.trans (hon py px hset))
  | _ => exact completed_sameRegsExcept _ s vf

/-- The bit of a sprite that falls on a pixel depends on MEM, I and the two coordinates alone (R152). -/
theorem spriteBitAt_congr {s u : State} {x y : RegNum} (hmem : u.mem = s.mem) (hidx : u.idx = s.idx) (hx : u.getV x = s.getV x)
    (hy : u.getV y = s.getV y) (n py px : Nat) : spriteBitAt u x y n py px = spriteBitAt s x y n py px := by
  simp only [spriteBitAt, hmem, hidx, hx, hy]

theorem drawn_of_exec_drw {x y : RegNum} {n : Nat} {s t : State} (he : exec (.drw x y n) s = .next t) (ht : t.err = none) :
    raisedAtExecute (.drw x y n) s = none ∧ t = s.drawn x y n := by
  obtain ⟨c, -, rfl⟩ | h := exec_raises_or_completes he
  · nomatch ht
  · exact h

/-- Settles O44: the second draw is in range as the first was, and the same bit is XORed twice. -/
theorem secondDrawRestoresTheScreen : Obligations.SecondDrawRestoresTheScreen := by
  intro x y n s t u w _ hs ht hfb hmem hidx hx hy _ hu py px
  obtain ⟨hnone, rfl⟩ := drawn_of_exec_drw hs ht
  have hsame : raisedAtExecute (.drw x y n) u = none := by simpa only [raisedAtExecute, hidx] using hnone
  obtain ⟨c, hc, -⟩ | ⟨-, rfl⟩ := exec_raises_or_completes hu
  · nomatch hsame.symm.trans hc
  by_cases hgrid : py < 32 ∧ px < 64
  · obtain ⟨hpy, hpx⟩ := hgrid
    have hbefore : u.pixel py px = (s.drawn x y n).pixel py px := by rw [State.pixel, hfb, State.pixel]
    calc (u.drawn x y n).pixel py px
      _ = (u.pixel py px ^^ spriteBitAt s x y n py px) := by
        rw [State.pixel_drawn hpy hpx, spriteBitAt_congr hmem hidx hx hy]
      _ = s.pixel py px := by
        rw [hbefore, State.pixel_drawn hpy hpx, Bool.xor_assoc, Bool.xor_self, Bool.xor_false]
  · rw [State.pixel_eq_false hgrid, State.pixel_eq_false hgrid]

end Sys2Proof.Machine
end

section
/-! The invariant (10_state.md R24 to R26, 41_control_flow.md R101, R102, 60_exceptions.md R172): at reset, over a step, and over every
list of commands: O54, O55 and O56. -/

namespace Sys2Proof.Machine

/-! ## Which fields the invariant speaks of -/

/-- The invariant speaks of MEM, SP, STACK, PC and ERR alone. -/
theorem State.Inv.congr {s t : State} (h : s.Inv) (hmem : t.mem = s.mem) (hsp : t.sp = s.sp) (hstack : t.stack = s.stack)
    (hpc : t.pc = s.pc) (herr : t.err = s.err) : t.Inv where
  mem := hmem ▸ h.mem
  sp := hsp ▸ h.sp
  stack := hstack ▸ h.stack
  pc := hpc ▸ h.pc
  err r hr := by
    have hlegal := h.err r (herr ▸ hr)
    unfold ErrRecord.Legal at hlegal ⊢
    rwa [hpc, hsp]

/-- The record of an error of this step is legal in the state it stands in (R172). -/
theorem legal_of_stepCause {s : State} {c : Cause} (hc : StepCause s c) : ErrRecord.Legal ⟨c, s.pc⟩ (s.raise c) := by
  have hpcLt := s.pc.isLt
  have hidxLt := s.idx.isLt
  refine ⟨rfl, ?_⟩
  cases hc with
  | fetch _ | data _ => exact ⟨by omega, by omega⟩
  | decode _ hd => exact hd
  | push hsp | pop hsp => exact ⟨rfl, hsp⟩

theorem State.Inv.raise {s : State} {c : Cause} (h : s.Inv) (hc : StepCause s c) : (s.raise c).Inv where
  mem := h.mem
  sp := h.sp
  stack := h.stack
  pc := h.pc
  err r hr := by
    obtain rfl : (⟨c, s.pc⟩ : ErrRecord) = r := Option.some.inj hr
    exact legal_of_stepCause hc

/-! ## Reset -/

theorem State.inv_resetWith (k : Vector Bool 16) : (State.resetWith k).Inv where
  mem := Memory.wf_nil
  sp := Nat.zero_le 16
  stack j := by simp [State.resetWith]
  pc := show 0x200 ≤ 0x10FE by decide
  err := nofun

/-- Settles O54: no element that the invariant speaks of depends on the keypad. -/
theorem invariantHoldsAtReset : Obligations.InvariantHoldsAtReset :=
  ⟨State.inv_resetWith Config.kInit, State.inv_resetWith⟩

theorem State.inv_resetCommand (s : State) : s.resetCommand.Inv :=
  (State.inv_resetWith s.keys).congr rfl rfl rfl rfl rfl

/-! ## Steps -/

/-- A call that completes found at most 15 entries, a return at least one (R26). -/
theorem completed_sp_le {s : State} {i : Instr} (hinv : s.Inv) (hnone : raisedAtExecute i s = none) :
    (s.completed i).sp.toNat ≤ 16 := by
  have hsp := hinv.sp
  cases i with
  | call nnn =>
    have hne : s.sp ≠ 16 := fun h => by simp [raisedAtExecute, h] at hnone
    have hval : (s.completed (.call nnn)).sp = s.sp + 1 := rfl
    rw [hval]
    bv_omega
  | ret =>
    have hne : s.sp ≠ 0 := fun h => by simp [raisedAtExecute, h] at hnone
    have hval : (s.completed .ret).sp = s.sp - 1 := rfl
    rw [hval]
    bv_omega
  | _ => exact hsp

/-- The one entry written is the address after a call that was fetched, at most 0xFFE + 2 (R101). -/
theorem completed_stack_le {s : State} (hinv : s.Inv) (hpc : s.pc.toNat ≤ 0xFFE) (i : Instr) (k : RegNum) :
    (s.completed i).stack[k.val].toNat ≤ 0x1000 := by
  cases i with
  | call nnn =>
    have hreturn : (s.pc + 2).toNat ≤ 0x1000 := by bv_omega
    have hentry : (s.completed (.call nnn)).stack[k.val] =
        if k.val = (lowNibble s.sp).val then s.pc + 2 else s.stack[k.val] := s.push_stack_getElem _ k _
    rw [hentry]
    exact toNat_ite_le hreturn (hinv.stack k)
  | _ => exact hinv.stack k

/-- A meaning that leaves ERR clear has completed, from a PC where it could be fetched. -/
theorem inv_of_exec {s t : State} {i : Instr} (hinv : s.Inv) (hpc : s.pc.toNat ≤ 0xFFE) (he : exec i s = .next t)
    (ht : t.err = none) : t.Inv := by
  obtain ⟨c, -, rfl⟩ | ⟨hnone, rfl⟩ := exec_raises_or_completes he
  · nomatch ht
  · exact {
      mem := exec_mem_wf hinv.mem he
      sp := completed_sp_le hinv hnone
      stack := completed_stack_le hinv hpc i
      pc := completed_pc i s ▸ pcAfter_le hinv hpc i
      err := fun _ hr => nomatch ht.symm.trans hr }

/-- Settles O55: a step that raises leaves a legal record and nothing else new, and a completed instruction keeps each bound. -/
theorem everyStepKeepsTheInvariant : Obligations.EveryStepKeepsTheInvariant := by
  intro s t hinv h
  obtain ht | ⟨c, hc, rfl⟩ := step_err_none_or_raise h
  · obtain ⟨-, ⟨c, -, rfl⟩ | ⟨w, -, -, rfl⟩ | ⟨w, i, hfetch, -, he⟩⟩ := step_cases h
    · nomatch ht
    · nomatch ht
    · exact inv_of_exec hinv (State.pc_le_of_fetch_ok hfetch) he ht
  · exact hinv.raise hc

/-! ## Commands -/

/-- A `STEP` leaves the state as it was, or takes a step with its byte on the random input, which is put back afterwards. -/
theorem stepCommand_state_cases (s : State) (rnd : Byte) :
    (s.stepCommand rnd).1 = s ∨
    ∃ t, step (s.withRandIn [rnd]) = .next t ∧ (s.stepCommand rnd).1 = t.withRandIn s.rndIn := by
  unfold State.stepCommand
  split
  · exact .inl rfl
  · split
    · exact .inl rfl
    · split
      · exact .inl rfl
      · exact .inl rfl
      · next t hstep => exact .inr ⟨t, hstep, rfl⟩

section
variable {s : State} (hinv : s.Inv)
include hinv

theorem inv_stepCommand (rnd : Byte) : (s.stepCommand rnd).1.Inv := by
  obtain hsame | ⟨t, hstep, hput⟩ := stepCommand_state_cases s rnd
  · rwa [hsame]
  · have hbyte : (s.withRandIn [rnd]).Inv := hinv.congr rfl rfl rfl rfl rfl
    rw [hput]
    exact (everyStepKeepsTheInvariant _ t hbyte hstep).congr rfl rfl rfl rfl rfl

theorem inv_loadProgram {bytes : List Byte} (hlen : bytes.length ≤ Config.progMax) : (s.loadProgram bytes).Inv where
  mem := State.loadProgram_mem_wf hinv.mem hlen
  sp := hinv.sp
  stack := hinv.stack
  pc := hinv.pc
  err := hinv.err

theorem inv_loadCommand (bytes : List Byte) : (s.loadCommand bytes).1.Inv := by
  unfold State.loadCommand
  split
  · exact hinv
  · split
    · exact hinv
    · next hfits => exact inv_loadProgram hinv (Nat.le_of_not_lt hfits)

theorem inv_tick : s.tick.Inv := by
  unfold State.tick
  split
  · exact hinv
  · exact hinv.congr rfl rfl rfl rfl rfl

theorem inv_command (c : Command) : (s.command c).1.Inv := by
  cases c with
  | reset => exact s.inv_resetCommand
  | load bytes => exact inv_loadCommand hinv bytes
  | step rnd => exact inv_stepCommand hinv rnd
  | tick => exact inv_tick hinv
  | keyWrite k down => exact hinv.congr rfl rfl rfl rfl rfl

theorem inv_runCommands (cs : List Command) : (s.runCommands cs).Inv := by
  induction cs generalizing s with
  | nil => exact hinv
  | cons c cs ih => exact ih (inv_command hinv c)

end

/-- Settles O56: by induction over the commands, from the state after `RESET` whatever the one before it. -/
theorem everyCommandListKeepsTheInvariant : Obligations.EveryCommandListKeepsTheInvariant := by
  refine ⟨fun _ cs hinv => inv_runCommands hinv cs, fun r cs => ?_⟩
  have hinv := inv_runCommands r.inv_resetCommand cs
  exact ⟨hinv.pc, hinv.sp⟩

end Sys2Proof.Machine
end

section
/-! Return after call, and the end of a program (41_control_flow.md R101, R102, R109): O25 and O28. -/

namespace Sys2Proof.Machine

/-- Settles O25: the call's entry is on top of its stack, and the return pops it. -/
theorem returnComesBackAfterCall : Obligations.ReturnComesBackAfterCall := by
  intro nnn s t u hsp hcall husp hustack
  cases (exec_call_of_lt nnn hsp).symm.trans hcall
  have hsp' : u.sp = s.sp + 1 := husp
  have htop : u.sp.toNat - 1 = s.sp.toNat := by rw [hsp']; bv_omega
  have hne : u.sp ≠ 0 := by rw [hsp']; bv_omega
  refine ⟨_, exec_ret_of_ne_zero (by omega) hne, ?pc, ?sp⟩
  case pc => simp only [State.setPc_pc, hustack, htop, State.setPc_stack, State.push_stack, Vector.getElem_set_self]
  case sp => rw [State.setPc_sp, State.pop_sp, hsp', BitVec.add_sub_cancel]

/-- Settles O28: the jump writes to PC the value it has. -/
theorem jumpToItselfIsAFixedPoint : Obligations.JumpToItselfIsAFixedPoint := by
  rintro s herr ⟨nnn, hnext, htarget⟩
  rw [step_of_nextInstr herr hnext, exec_jp, htarget]
  rfl

end Sys2Proof.Machine
end

section
/-! The laws of the flags (42_alu.md R131): O33. -/

namespace Sys2Proof.Machine

theorem flag_eq_one_iff {c : Prop} [Decidable c] : (if c then (1 : Byte) else 0) = 1 ↔ c := by
  by_cases h : c <;> simp [h]

theorem flag_eq_zero_or_one {c : Prop} [Decidable c] : (if c then (1 : Byte) else 0) = 0 ∨ (if c then (1 : Byte) else 0) = 1 :=
  (ite_eq_or_eq c (1 : Byte) 0).symm

/-- The 9-bit difference is below 256 exactly when there is no borrow. -/
theorem difference_bit8_eq_false_iff (a b : Byte) :
    (a.setWidth 9 - b.setWidth 9).getLsbD 8 = false ↔ a.toNat ≥ b.toNat := by
  have ha := a.isLt
  have hb := b.isLt
  have hbit : (a.setWidth 9 - b.setWidth 9).getLsbD 8 = (a.setWidth 9 - b.setWidth 9).msb := rfl
  rw [hbit, BitVec.msb_eq_decide, decide_eq_false_iff_not, BitVec.toNat_sub, BitVec.toNat_setWidth, BitVec.toNat_setWidth]
  omega

/-- Settles O33: both flags are conditionals on the integer comparison. -/
theorem carryAndBorrowLaws : Obligations.CarryAndBorrowLaws := by
  intro a b
  rw [carryFlag_eq_ite, noBorrowFlag_eq_ite, difference_bit8_eq_false_iff]
  exact ⟨flag_eq_one_iff, sumByte_toNat a b, flag_eq_one_iff, flag_eq_one_iff, flag_eq_zero_or_one, flag_eq_zero_or_one⟩

end Sys2Proof.Machine
end

section
/-! MEM read after it was written (20_memory.md R60 to R62), and its canonical form: O38, O40 and O41. -/

namespace Sys2Proof.Machine

/-- A block store that raises nothing has all its addresses in range. -/
theorem le_of_exec_storeVx {x : RegNum} {s t : State} (he : exec (.storeVx x) s = .next t) (ht : t.err = none) :
    s.idx.toNat + x.val ≤ 0xFFF := by
  by_contra h
  cases (exec_of_last_address_above (i := .storeVx x) rfl (Nat.lt_of_not_le h)).symm.trans he
  nomatch ht

/-- What a block store that raises nothing does: O36 without its range. -/
theorem get_of_exec_storeVx {x : RegNum} {s t : State} (hwf : s.mem.wf) (he : exec (.storeVx x) s = .next t) (ht : t.err = none)
    {k : RegNum} (hk : k ≤ x) : t.mem.get (s.idx.toNat + k.val) = s.getV k := by
  obtain ⟨u, hu, hbytes, -⟩ := (blockStoreWritesRegisters x s hwf).1 (le_of_exec_storeVx he ht)
  cases hu.symm.trans he
  exact hbytes k hk

/-- Settles O38: the load is in range as the store was, and reads the bytes that the store put there. -/
theorem blockLoadAfterStoreRestores : Obligations.BlockLoadAfterStoreRestores := by
  intro x s t u hwf _ hstore ht hmem hidx
  have hle : u.idx.toNat + x.val ≤ 0xFFF := hidx ▸ le_of_exec_storeVx hstore ht
  refine ⟨_, exec_loadVx_of_le hle, fun k hk => ?_⟩
  rw [getV_setVs_readBlock, if_pos hk, hmem, hidx, get_of_exec_storeVx hwf hstore ht hk]

/-- Settles O40: PC has moved to I, where the store put V0 and V1. -/
theorem storedBytesAreFetchedNext : Obligations.StoredBytesAreFetchedNext := by
  intro x s t hwf _ hidx hpc hx hstore ht
  have hV0 := get_of_exec_storeVx hwf hstore ht (Fin.zero_le x)
  have hV1 := get_of_exec_storeVx hwf hstore ht (k := 1) (Fin.le_def.2 hx)
  have hnext : t.pc = s.idx := by
    cases (exec_storeVx_of_le (le_of_exec_storeVx hstore ht)).symm.trans hstore
    exact hidx.symm
  have hfetchable : s.idx.toNat ≤ 0xFFE := by rw [hidx]; bv_omega
  rcases t.fetch_cases with ⟨habove, -⟩ | ⟨habove, -⟩ | ⟨-, hfetch⟩
  · rw [hnext] at habove; omega
  · rw [hnext] at habove; omega
  · rw [hfetch, hnext]
    exact congrArg₂ (fun hi lo => Except.ok (wordOfBytes hi lo)) hV0 hV1

/-! ## Memories that read alike -/

/-- Every listed cell of a canonical memory is listed in each memory that reads alike, since it is not the reset contents. -/
theorem exists_cell_of_reads_alike {m n : Memory} {c : Host.Cell} (hm : Memory.wf (c :: m))
    (halike : ∀ a < 0x1000, Memory.get (c :: m) a = n.get a) : ∃ d ∈ n, d.1 = c.1 := by
  obtain ⟨hlt, hne⟩ := hm.2 c List.mem_cons_self
  by_contra h
  push Not at h
  have hget : Memory.get (c :: m) c.1 = c.2 := if_pos rfl
  exact hne (hget.symm.trans ((halike c.1 hlt).trans (Memory.get_of_forall_ne h)))

/-- The first cell of a canonical memory has the least address that is listed. -/
theorem head_le_of_reads_alike {m n : Memory} {c d : Host.Cell} (hm : Memory.wf (c :: m)) (hn : Memory.wf (d :: n))
    (halike : ∀ a < 0x1000, Memory.get (c :: m) a = Memory.get (d :: n) a) : d.1 ≤ c.1 := by
  obtain ⟨e, he, heq⟩ := exists_cell_of_reads_alike hm halike
  rcases List.mem_cons.1 he with rfl | he
  · exact heq.le
  · exact heq ▸ (Memory.wf_lt hn e he).le

theorem tails_read_alike {m n : Memory} {c : Host.Cell} (hm : Memory.wf (c :: m)) (hn : Memory.wf (c :: n)) {a : Nat}
    (h : Memory.get (c :: m) a = Memory.get (c :: n) a) : m.get a = n.get a := by
  by_cases ha : c.1 = a
  · rw [Memory.get_of_forall_ne fun d hd => ha ▸ (Memory.wf_lt hm d hd).ne',
      Memory.get_of_forall_ne fun d hd => ha ▸ (Memory.wf_lt hn d hd).ne']
  · rwa [Memory.get, Memory.get, if_neg ha, if_neg ha] at h

/-- Settles O41: each memory lists the addresses of the other, so the two first cells have the same address and are the same cell; the
rests read alike in turn. -/
theorem memoriesThatReadAlikeAreEqual : Obligations.MemoriesThatReadAlikeAreEqual := by
  intro m n hm hn halike
  induction m generalizing n with
  | nil =>
    cases n with
    | nil => rfl
    | cons d n =>
      obtain ⟨e, he, -⟩ := exists_cell_of_reads_alike hn fun a ha => (halike a ha).symm
      nomatch he
  | cons c m ih =>
    cases n with
    | nil =>
      obtain ⟨e, he, -⟩ := exists_cell_of_reads_alike hm halike
      nomatch he
    | cons d n =>
      have haddr : c.1 = d.1 :=
        le_antisymm (head_le_of_reads_alike hn hm fun a ha => (halike a ha).symm) (head_le_of_reads_alike hm hn halike)
      have hbyte : c.2 = d.2 := by
        have hread := halike c.1 (hm.2 c List.mem_cons_self).1
        rwa [Memory.get, Memory.get, if_pos rfl, if_pos haddr.symm] at hread
      obtain rfl : c = d := Prod.ext haddr hbyte
      rw [ih n (Memory.wf_tail hm) (Memory.wf_tail hn) fun a ha => tails_read_alike hm hn (halike a ha)]

end Sys2Proof.Machine
end

section
/-! RND in the model's form of the random source (45_keypad_timers_random.md R166, log entry 2): O47. -/

namespace Sys2Proof.Machine

theorem exec_rnd (x : RegNum) (nn : Byte) (s : State) :
    exec (.rnd x nn) s = .next (s.useRand.advance.setV x (s.rand &&& nn)) := rfl

/-- Settles O47: apart from the byte used the instruction is a write of the masked byte to V[X]. -/
theorem randomByteIsMasked : Obligations.RandomByteIsMasked := by
  intro x nn s
  obtain ⟨hvalue, hregs, hidx, hpc, hmem, hdisplay, hstack, htimers, hkeys, -, herr⟩ :=
    registerEffect_setV s.useRand x (s.rand &&& nn)
  refine ⟨⟨_, exec_rnd x nn s, fun k _ => ?bits, rfl, rfl, hregs, hidx, hpc, hmem, hdisplay, hstack, htimers, hkeys, herr⟩,
    fun r rest hin => ⟨_, exec_rnd x nn s, ?input, fun k _ => ?inputBits⟩⟩
  case bits => rw [hvalue, BitVec.getLsbD_and]
  case input => exact congrArg List.tail hin
  case inputBits =>
    have hbyte : s.rand = r := by simp only [State.rand, hin]
    rw [hvalue, hbyte, BitVec.getLsbD_and]

end Sys2Proof.Machine
end

section
/-! What follows a `RESET` (70_reset_and_hazards.md R200 to R204): O52 and O53. -/

namespace Sys2Proof.Machine

/-- Settles O52: the program lies over the empty memory of `RESET`, and nothing else of the state before is left in MEM. -/
theorem resetThenLoadIsReproducible : Obligations.ResetThenLoadIsReproducible := by
  intro s bytes hlen
  have hrun : s.runCommands [.reset, .load bytes] = s.resetCommand.loadProgram bytes :=
    congrArg Prod.fst (command_load_of_fits s.resetCommand_err hlen)
  refine ⟨_, hrun, rfl, rfl, fun a _ => ?_⟩
  rw [get_loadProgram (s := s.resetCommand) Memory.wf_nil hlen]
  by_cases h : 0x200 ≤ a ∧ a < 0x200 + bytes.length
  · rw [if_pos h, if_neg (by omega)]
  · rw [if_neg h, if_pos (by omega)]
    rfl

theorem fetch_resetCommand (s : State) : s.resetCommand.fetch = .ok 0x0000 :=
  (State.fetch_congr (s := State.reset) rfl rfl).trans (by decide)

/-- With no program the word at 0x200 is 0x0000, which is illegal (R204). -/
theorem stepCommand_resetCommand (s : State) (rnd : Byte) :
    s.resetCommand.stepCommand rnd =
      (s.resetCommand.raise (.illegalOpcode 0x0000), .error ⟨.illegalOpcode 0x0000, 0x200⟩) := by
  have hillegal : decodeWord 0x0000 = .error (.illegalOpcode 0x0000) := rfl
  have hrun : s.resetCommand.stalls = false := by
    simp only [State.stalls, State.nextInstr, fetch_resetCommand, hillegal]
  have hstep := step_of_illegal (s := s.resetCommand.withRandIn [rnd]) s.resetCommand_err (fetch_resetCommand s) hillegal
  rw [stepCommand_of_next s.resetCommand_err hrun hstep]
  rfl

/-- Settles O53: the `STEP` raises at 0x200, and PC stays there. -/
theorem stepWithoutLoadIsIllegalOpcode : Obligations.StepWithoutLoadIsIllegalOpcode := by
  intro s rnd
  have hstep := stepCommand_resetCommand s rnd
  exact ⟨congrArg Prod.snd hstep, congrArg (fun p => p.1.pc) hstep⟩

end Sys2Proof.Machine
end
